-- ==== Sys2Proof/Word.lean ====
section
/-!
DEFINITION. The words of the block (00_scope.md R6, R9): a 32-bit host word (addresses, operands, values) and an 8-bit
byte. All values are unsigned (R9).
-/

namespace Sys2Proof

/-- A 32-bit value: a host-memory address, a command operand, a response value (R6: ADDR_W = DROP_W = BAUD_W = 32). -/
abbrev Word := BitVec 32

/-- An 8-bit value: one byte of host memory, one entry of the receive queue (R6: W = 8). -/
abbrev Byte := BitVec 8

end Sys2Proof
end

