-- ==== Sys2Proof/Syntax.lean ====
section
/-!
DEFINITION. The instructions of the block (00_scope.md R12: one command of the host command port, one receive event, or
one FIFO engine operation), one constructor for each row of spec/opcode_table.json, and the words of the three ports
that carry them (30_encoding.md R70).
An operand field the spec ignores (R73) is kept as an operand: no bit of a word is lost by decoding, and "ignored" is a
statement about the meanings (log 19).
-/

namespace Sys2Proof

/-- One row of spec/opcode_table.json each (30_encoding.md R79, R76, R78). `ignA`, `ignB`, `ignData` are operand bits
the spec ignores. -/
inductive Instr where
  /-- OPEN (op 0x01): `baud` is passed to ConfigureLine (41_line_control.md R121). -/
  | openLine (baud ignB : Word)
  /-- CLOSE (op 0x02) (R124). -/
  | close (ignA ignB : Word)
  /-- READ (op 0x03): destination base address and maxLength (43_drain.md R160, R161). -/
  | read (dst maxLength : Word)
  /-- SEND_BYTE (op 0x04): the byte is a[7:0] (44_transmit.md R181). -/
  | sendByte (byte : Byte) (ignAHigh : BitVec 24) (ignB : Word)
  /-- SEND_STRING (op 0x05): source base address (R182). -/
  | sendString (src ignB : Word)
  /-- SEND_ARRAY (op 0x06): source base address and length (R183). -/
  | sendArray (src length : Word)
  /-- GET_LAST_ERROR (op 0x07) (45_query.md R200). -/
  | getLastError (ignA ignB : Word)
  /-- GET_DROPPED (op 0x08) (R201). -/
  | getDropped (ignA ignB : Word)
  /-- GET_STATUS (op 0x09) (R202). -/
  | getStatus (ignA ignB : Word)
  /-- GET_COUNT (op 0x0A) (R203). -/
  | getCount (ignA ignB : Word)
  /-- RESERVED_00 (op 0x00) (R80, R204). -/
  | reserved00 (ignA ignB : Word)
  /-- RESERVED_0B_FF (op 0x0B to 0xFF, kept as an operand) (R80, R204). -/
  | reserved0BFF (op : Byte) (ignA ignB : Word)
  /-- RX_EVENT: a status and a data byte (42_receive.md R142). -/
  | rxEvent (status : BitVec 10) (data : Byte)
  /-- FIFO_IDLE (fop 00) (30_encoding.md R78). -/
  | fifoIdle (ignData : Byte)
  /-- FIFO_TRY_PUSH (fop 01) (40_fifo_engine.md R102). -/
  | fifoTryPush (value : Byte)
  /-- FIFO_TRY_POP (fop 10) (R103). -/
  | fifoTryPop (ignData : Byte)
  /-- FIFO_INIT (fop 11) (R101). -/
  | fifoInit (ignData : Byte)
  deriving DecidableEq, Repr

/-- The three input ports that carry instructions (30_encoding.md R70, formats C, E and F). -/
inductive Port where
  | command
  | event
  | fifo
  deriving DecidableEq, Repr

/-- A word at its port: "a decoder knows the length of every word from its port alone" (30_encoding.md R70). Format F
is taken at W = 8, the receive queue's (00_scope.md R6). -/
inductive PortWord where
  | command (w : BitVec 72)
  | event (w : BitVec 18)
  | fifo (w : BitVec 10)
  deriving DecidableEq, Repr

/-- The port a word stands at. -/
def PortWord.port : PortWord → Port
  | .command _ => .command
  | .event _ => .event
  | .fifo _ => .fifo

/-- The pseudo-instructions of the text form (30_encoding.md R83). -/
inductive Pseudo where
  | nop
  | putc (byte : Byte)
  | drain (dst maxLength : Word)
  | reopen (baud : Word)
  deriving DecidableEq, Repr

end Sys2Proof
end

