-- ==== Sys2Proof/WellFormed.lean ====
section
/-!
DEFINITION. Which terms of Instr stand for a word. Every operand has the width of its field (Syntax.lean), so one check
is left: the row RESERVED_0B_FF holds the opcodes 0x0B to 0xFF and no other (30_encoding.md R80).
-/

namespace Sys2Proof

/-- The well-formed instructions: a reserved opcode of the range row lies in 0x0B .. 0xFF (30_encoding.md R79, R80). -/
def Instr.wf : Instr → Bool
  | .openLine _ _ => true
  | .close _ _ => true
  | .read _ _ => true
  | .sendByte _ _ _ => true
  | .sendString _ _ => true
  | .sendArray _ _ => true
  | .getLastError _ _ => true
  | .getDropped _ _ => true
  | .getStatus _ _ => true
  | .getCount _ _ => true
  | .reserved00 _ _ => true
  | .reserved0BFF op _ _ => decide (0x0B ≤ op.toNat)
  | .rxEvent _ _ => true
  | .fifoIdle _ => true
  | .fifoTryPush _ => true
  | .fifoTryPop _ => true
  | .fifoInit _ => true

end Sys2Proof
end

