-- ==== Sys2Proof/Decode.lean ====
section
/-!
DEFINITION. The decoder of the three port words and the encoder beside it, both written from 30_encoding.md R71, R73,
R76, R78, R79. Every word of a port decodes (R79: the reserved opcodes are rows of their own; R80: they are accepted and
answered), so a decoder of a word refuses nothing; what is refused, by name, is a number of bits that no word of the
port can be.
-/

namespace Sys2Proof

/-- `cmd[7:0]`, the opcode (R71). -/
def cmdOp (w : BitVec 72) : Byte := w.extractLsb' 0 8

/-- `cmd[39:8]`, the first operand (R71). -/
def cmdA (w : BitVec 72) : Word := w.extractLsb' 8 32

/-- `cmd[71:40]`, the second operand (R71). -/
def cmdB (w : BitVec 72) : Word := w.extractLsb' 40 32

/-- The opcode map of the command port (30_encoding.md R79, operands R73). -/
def decodeCommand (w : BitVec 72) : Instr :=
  match (cmdOp w).toNat with
  | 0x00 => .reserved00 (cmdA w) (cmdB w)
  | 0x01 => .openLine (cmdA w) (cmdB w)
  | 0x02 => .close (cmdA w) (cmdB w)
  | 0x03 => .read (cmdA w) (cmdB w)
  | 0x04 => .sendByte ((cmdA w).extractLsb' 0 8) ((cmdA w).extractLsb' 8 24) (cmdB w)
  | 0x05 => .sendString (cmdA w) (cmdB w)
  | 0x06 => .sendArray (cmdA w) (cmdB w)
  | 0x07 => .getLastError (cmdA w) (cmdB w)
  | 0x08 => .getDropped (cmdA w) (cmdB w)
  | 0x09 => .getStatus (cmdA w) (cmdB w)
  | 0x0A => .getCount (cmdA w) (cmdB w)
  | _ => .reserved0BFF (cmdOp w) (cmdA w) (cmdB w)

/-- The receive-event port has one meaning: `ev[17:8]` is the status, `ev[7:0]` the data byte (R76, R79). -/
def decodeEvent (w : BitVec 18) : Instr :=
  .rxEvent (w.extractLsb' 8 10) (w.extractLsb' 0 8)

/-- `fop`, in the two low bits of the word (R78; the table's mask 0b11; DEDUCED, log 9). -/
def fifoOp (w : BitVec 10) : BitVec 2 := w.extractLsb' 0 2

/-- `fwdata`, above `fop` (R78; DEDUCED, log 9). -/
def fifoData (w : BitVec 10) : Byte := w.extractLsb' 2 8

/-- The FIFO engine's port at W = 8 (30_encoding.md R78). -/
def decodeFifo (w : BitVec 10) : Instr :=
  match (fifoOp w).toNat with
  | 0 => .fifoIdle (fifoData w)
  | 1 => .fifoTryPush (fifoData w)
  | 2 => .fifoTryPop (fifoData w)
  | _ => .fifoInit (fifoData w)

/-- The decoder: total on every word of every port (30_encoding.md R70, R79). -/
def decode : PortWord → Instr
  | .command w => decodeCommand w
  | .event w => decodeEvent w
  | .fifo w => decodeFifo w

/-- A command word `{b, a, op}` (R71). -/
def commandWord (op : Byte) (a b : Word) : BitVec 72 := b ++ a ++ op

/-- A receive-event word `{status, data}` (R76). -/
def eventWord (status : BitVec 10) (data : Byte) : BitVec 18 := status ++ data

/-- A FIFO request word, `fop` lowest (R78; DEDUCED, log 9). -/
def fifoWord (fop : BitVec 2) (fwdata : Byte) : BitVec 10 := fwdata ++ fop

/-- The encoder, from the opcode map R79 and the formats R71, R76, R78. -/
def encode : Instr → PortWord
  | .openLine baud b => .command (commandWord 0x01 baud b)
  | .close a b => .command (commandWord 0x02 a b)
  | .read dst maxLength => .command (commandWord 0x03 dst maxLength)
  | .sendByte byte aHigh b => .command (commandWord 0x04 (aHigh ++ byte) b)
  | .sendString src b => .command (commandWord 0x05 src b)
  | .sendArray src length => .command (commandWord 0x06 src length)
  | .getLastError a b => .command (commandWord 0x07 a b)
  | .getDropped a b => .command (commandWord 0x08 a b)
  | .getStatus a b => .command (commandWord 0x09 a b)
  | .getCount a b => .command (commandWord 0x0A a b)
  | .reserved00 a b => .command (commandWord 0x00 a b)
  | .reserved0BFF op a b => .command (commandWord op a b)
  | .rxEvent status data => .event (eventWord status data)
  | .fifoIdle d => .fifo (fifoWord 0 d)
  | .fifoTryPush d => .fifo (fifoWord 1 d)
  | .fifoTryPop d => .fifo (fifoWord 2 d)
  | .fifoInit d => .fifo (fifoWord 3 d)

/-- Why a number of bits is no word of a port. -/
inductive DecodeError where
  /-- No format of R70 has so many bits. -/
  | noSuchFormat (nbits : Nat)
  /-- A bit above the format's width is set. -/
  | bitsAboveWord
  deriving DecidableEq, Repr

/-- The word of a port from its bits as a number, `nbits` of them in whole bytes. The formats have 72, 18 and 2 + 8 bits
(R70), so the number of bits tells the port; bits that round a word up to whole bytes are 0 (log 9). -/
def wordOfBits (nbits w : Nat) : Except DecodeError PortWord :=
  if nbits ≤ 16 then
    if w < 2 ^ 10 then .ok (.fifo (BitVec.ofNat 10 w)) else .error .bitsAboveWord
  else if nbits ≤ 24 then
    if w < 2 ^ 18 then .ok (.event (BitVec.ofNat 18 w)) else .error .bitsAboveWord
  else if nbits ≤ 72 then
    if w < 2 ^ 72 then .ok (.command (BitVec.ofNat 72 w)) else .error .bitsAboveWord
  else .error (.noSuchFormat nbits)

/-- Decode a number of bits, or say by name why it is no word. -/
def decodeBits (nbits w : Nat) : Except DecodeError Instr :=
  match wordOfBits nbits w with
  | .ok p => .ok (decode p)
  | .error e => .error e

/-- The instruction the decoder reads from a row's bits, bit 0 the least significant. -/
def decodeTableWord (nbits w : Nat) : Option Instr :=
  match decodeBits nbits w with
  | .ok i => some i
  | .error _ => none

end Sys2Proof
end

