-- ==== Sys2Proof/Config.lean ====
section
/-!
DEFINITION. What an implementation fixes (00_scope.md R6) and the values the spec leaves free.
The two OPEN parameters, RX_CAPACITY and HostMem, are fields of State (`rxQueue.capacity`, `hostMem`), so that a claim
about every state is a claim about every choice of them; the constants here are only what `State.reset` is built with.
-/

namespace Sys2Proof

/-- The kinds of access a host-memory map distinguishes (20_memory.md R52: k in Read, Write). -/
inductive AccessKind where
  | read
  | write
  deriving DecidableEq, Repr

/-- One region of the platform's host-memory map: the addresses base .. base + size - 1 and what the block may do
there (20_memory.md R52). -/
structure Region where
  base : Nat
  size : Nat
  canRead : Bool
  canWrite : Bool
  deriving DecidableEq, Repr

/-- RX_CAPACITY of the machine that `State.reset` is. DESIGN CHOICE (log 4): the spec leaves it OPEN; 4 is the capacity
of 95_test_vectors.md. Unsafe for a claim about `State.reset` alone. -/
def Config.rxCapacity : Nat := 4

/-- CAPACITY of the FIFO engine instance of its own that `State.reset` holds beside the block. DESIGN CHOICE (log 10): the
spec admits any; 4 is the capacity of 95_test_vectors.md L1.1. Unsafe for a claim about `State.reset` alone. -/
def Config.fifoCapacity : Nat := 4

/-- HostMem of the machine that `State.reset` is. DESIGN CHOICE (log 5): the spec leaves it OPEN; every address admits
both kinds, as 95_test_vectors.md assumes. Unsafe for a claim about `State.reset` alone. -/
def Config.hostMem : List Region := [{ base := 0, size := 2 ^ 32, canRead := true, canWrite := true }]

/-- FREE VALUE (log 7): what host memory holds at an address neither the host nor the block has written. Its contents
belong to the host (20_memory.md R52); the spec gives none. No body: no proof can see a value of it. -/
opaque Config.hostInitialByte : Word → Byte

/-- FREE VALUE (log 8): the W-bit values the FIFO engine's reply port carries where the spec gives none, one for each
draw (40_fifo_engine.md R103: "any W-bit value"). No body: no proof can see a value of it. -/
opaque Config.freeData : (w : Nat) → Nat → BitVec w

end Sys2Proof
end

