-- ==== Sys2Proof/Machine/State.lean ====
section
/-!
DEFINITION. The state of the machine: the block's architectural state (10_state.md R20 to R33), the host memory and the
ports the rules read and write (R39, 20_memory.md R52, 30_encoding.md R70 to R78), and the model's own fields, each
marked as such. Plain data throughout.
-/

namespace Sys2Proof.Machine

/-- The kinds of 30_encoding.md R75. Codes 0xB to 0xF are reserved and never produced, so no kind stands for them. -/
inductive ResultCode where
  | success
  | invalidArgument
  | notOpen
  | alreadyOpen
  | queueFull
  | queueEmpty
  | framingError
  | parityError
  | lineBreakError
  | noiseError
  | overrunError
  deriving DecidableEq, Repr

/-- `st.state` (10_state.md R24): Closed or Open. -/
inductive Lifecycle where
  | closed
  | opened
  deriving DecidableEq, Repr

/-- A FIFO engine (10_state.md R21) with element width `w`. Counts and indices are naturals whose bounds are an
invariant, as R21 allows. -/
structure Fifo (w : Nat) where
  capacity : Nat
  count : Nat
  writeIndex : Nat
  readIndex : Nat
  storage : List (BitVec w)
  deriving DecidableEq, Repr

/-- A request at the FIFO engine's port, format F (30_encoding.md R78). -/
structure FifoRequest (w : Nat) where
  fop : BitVec 2
  fwdata : BitVec w
  deriving DecidableEq, Repr

/-- The reply at the FIFO engine's port, format F (30_encoding.md R78). -/
structure FifoReply (w : Nat) where
  fok : Bool
  frdata : BitVec w
  deriving DecidableEq, Repr

/-- The kinds of a busy send (10_state.md R29). -/
inductive SendKind where
  | byte
  | string
  | array
  deriving DecidableEq, Repr

/-- `st.send`, the send engine (10_state.md R29). -/
inductive SendEngine where
  | idle
  | busy (kind : SendKind) (addr remaining : Word)
  deriving DecidableEq, Repr

/-- The output events of the block (30_encoding.md R77). -/
inductive OutputEvent where
  | configureLine (baud : Word)
  | writeData (byte : Byte)
  deriving DecidableEq, Repr

/-- Host memory (20_memory.md R52): (address, byte) pairs, addresses strictly rising and below 2^32. An unlisted address
has NO listed value; what a MemRead of it answers is a free value (log 7). -/
abbrev Memory := List Host.Cell

/-- What can happen next (00_scope.md R5, 60_exceptions.md R230): a step of the host, the receiver, the transmitter or
the reset source, or a step of the block that an agent's doing has made possible. A move whose step is not enabled
changes nothing (log 2). The last two moves are none of the block's: they reach only a FIFO engine instance of its own,
which shares no state with the block (log 10). -/
inductive Move where
  /-- Host: put a command word on the command port (R72). -/
  | issueCommand (w : BitVec 72)
  /-- Block: accept the command at the port, if it can be accepted (R72). -/
  | acceptCommand
  /-- Receiver: offer a receive event (R76, R141). -/
  | offerEvent (w : BitVec 18)
  /-- Block: take the offered receive event, if enabled (R140). -/
  | takeEvent
  /-- Transmitter: set `tx_ready` (R77, R186). -/
  | setTxReady (ready : Bool)
  /-- Block: the pending transmit step of a busy send, if enabled (R184, R186). -/
  | transmit
  /-- Host: write a byte of its memory, outside a command (20_memory.md R52, R55; log 12). -/
  | hostWrite (addr : Word) (value : Byte)
  /-- Reset source: power-up reset (70_reset_and_hazards.md R260). -/
  | powerReset
  /-- A request at the port of the FIFO engine instance of its own (R78; log 10, log 18). -/
  | requestFifo (w : BitVec 10)
  /-- That instance: serve the request (R78, R105; log 10). -/
  | serveFifo
  deriving DecidableEq, Repr

/-- The state of the machine. -/
structure State where
  /-- `st.state` (R24). -/
  state : Lifecycle
  /-- `st.rxQueue` (R25). -/
  rxQueue : Fifo 8
  /-- `st.lastError` (R26). -/
  lastError : ResultCode
  /-- `st.rxIrqEnable`, also the level of the output `rx_irq_en` (R27, R77). -/
  rxIrqEnable : Bool
  /-- `st.dropped` (R28). -/
  dropped : Word
  /-- `st.send` (R29). -/
  send : SendEngine
  /-- `st.faulted` (R30). -/
  faulted : Bool
  /-- Host memory (R52). -/
  mem : Memory
  /-- The parameter HostMem (R52), fixed for a run. -/
  hostMem : List Region
  /-- The command word held at the command port (R71, R72). -/
  cmdPort : Option (BitVec 72)
  /-- The receive event the receiver offers (R76, R140; log 18). -/
  rxPort : Option (BitVec 18)
  /-- A FIFO engine instance of its own, beside the block and sharing nothing with it, on which the format F rows run
  (10_state.md R21, 30_encoding.md R78; log 10). The block's instance is `rxQueue`. -/
  fifoEngine : Fifo 8
  /-- The request at that instance's port (R78; log 10, log 18). -/
  fifoPort : Option (BitVec 10)
  /-- The last reply at that port (R78). -/
  fifoReply : Option (FifoReply 8)
  /-- The input `tx_ready` (R39, R77). -/
  txReady : Bool
  /-- The response words driven so far, oldest first (R74). -/
  responses : List (BitVec 36)
  /-- The output trace, oldest first (R77). -/
  trace : List OutputEvent
  /-- The model's own: the host has issued a command and not received its response (R72, R278; log 14). -/
  awaiting : Bool
  /-- The model's own: the address of the HostBusFault that stopped the block (R226; log 1). -/
  faultAddr : Option Word
  /-- The model's own: how many free values have been drawn (log 8). -/
  draws : Nat
  /-- The model's own: what happens next, oldest first (R230; log 2). -/
  moves : List Move
  deriving DecidableEq, Repr

/-- Why the machine stops with a fault. -/
inductive Fault where
  /-- Raised by `step` when the block is stopped by a HostBusFault and no move is left, so that nothing can happen to it
  any more (60_exceptions.md R226: "The address is part of the model's fault outcome"). `addr` is the address of the
  access HostMem did not admit. Safe: R30 says that no step of the block is enabled. -/
  | hostBusFault (addr : Option Word)
  deriving DecidableEq, Repr

/-- Why the machine has no meaning to give. -/
inductive Refusal where
  /-- Raised by an arm of `exec` for an instruction without a meaning yet; no arm raises it. Safe. -/
  | notModelled (mnemonic : String)
  /-- Raised by `elaborate` for an instance whose capacity is 0 or over 2^32 - 1 (00_scope.md R6, R7: "refused at
  elaboration"). Safe: the spec refuses it. -/
  | illegalCapacity (capacity : Nat)
  deriving DecidableEq, Repr

/-- A FIFO engine instance as FIFO_INIT leaves it (40_fifo_engine.md R101). Its storage is unspecified (10_state.md R33):
zero bytes, DESIGN CHOICE, unsafe (log 6). -/
def Fifo.fresh (capacity : Nat) : Fifo 8 :=
  { capacity := capacity, count := 0, writeIndex := 0, readIndex := 0, storage := List.replicate capacity 0 }

/-- A block right after power-up reset (10_state.md R32, R38, R260), for a capacity and a host-memory map, and a FIFO
engine instance of its own beside it (log 10). The ports and the model's own fields: log 3, 14, 15. -/
def State.powerUp (capacity fifoCapacity : Nat) (hostMem : List Region) : State where
  state := .closed
  rxQueue := Fifo.fresh capacity
  lastError := .success
  rxIrqEnable := false
  dropped := 0
  send := .idle
  faulted := false
  mem := []
  hostMem := hostMem
  cmdPort := none
  rxPort := none
  fifoEngine := Fifo.fresh fifoCapacity
  fifoPort := none
  fifoReply := none
  txReady := false
  responses := []
  trace := []
  awaiting := false
  faultAddr := none
  draws := 0
  moves := []

/-- The machine right after reset (10_state.md R32; log 4, log 5, log 10 for the open parameters). -/
def State.reset : State := State.powerUp Config.rxCapacity Config.fifoCapacity Config.hostMem

end Sys2Proof.Machine
end

