-- ==== Sys2Proof/Machine/Flags.lean ====
section
/-!
DEFINITION. The flags the block computes and reads: the device status bits of a receive event (30_encoding.md R76),
their classification (42_receive.md R143), the queue's full and empty (10_state.md R23), the saturating drop count
(00_scope.md R9), the status value (45_query.md R202), and the result codes' wire values (30_encoding.md R75).
-/

namespace Sys2Proof.Machine

/-- PE, `status[0]` (R76). -/
def statusPE (s : BitVec 10) : Bool := s.getLsbD 0

/-- FE, `status[1]` (R76). -/
def statusFE (s : BitVec 10) : Bool := s.getLsbD 1

/-- NE, `status[2]` (R76). -/
def statusNE (s : BitVec 10) : Bool := s.getLsbD 2

/-- ORE, `status[3]` (R76). -/
def statusORE (s : BitVec 10) : Bool := s.getLsbD 3

/-- LBD, `status[8]` (R76). -/
def statusLBD (s : BitVec 10) : Bool := s.getLsbD 8

/-- The classification of a status, the first matching condition only: framing, parity, line-break, noise, overrun
(42_receive.md R143). -/
def classify (s : BitVec 10) : ResultCode :=
  if statusFE s then .framingError
  else if statusPE s then .parityError
  else if statusLBD s then .lineBreakError
  else if statusNE s then .noiseError
  else if statusORE s then .overrunError
  else .success

/-- A line-level error: framing, parity, line-break or noise; overrun is not one (00_scope.md R14). -/
def ResultCode.isLineLevel : ResultCode → Bool
  | .framingError => true
  | .parityError => true
  | .lineBreakError => true
  | .noiseError => true
  | .success => false
  | .invalidArgument => false
  | .notOpen => false
  | .alreadyOpen => false
  | .queueFull => false
  | .queueEmpty => false
  | .overrunError => false

/-- The 4-bit wire value of a kind (30_encoding.md R75). -/
def ResultCode.code : ResultCode → BitVec 4
  | .success => 0x0
  | .invalidArgument => 0x1
  | .notOpen => 0x2
  | .alreadyOpen => 0x3
  | .queueFull => 0x4
  | .queueEmpty => 0x5
  | .framingError => 0x6
  | .parityError => 0x7
  | .lineBreakError => 0x8
  | .noiseError => 0x9
  | .overrunError => 0xA

/-- The 1-bit wire value of `st.state`: Closed 0, Open 1 (10_state.md R24). -/
def Lifecycle.code : Lifecycle → BitVec 1
  | .closed => 0
  | .opened => 1

/-- Full is decided by the count alone (10_state.md R22, R23). -/
def Fifo.full {w : Nat} (q : Fifo w) : Bool := q.count == q.capacity

/-- Empty is decided by the count alone (10_state.md R22, R23). -/
def Fifo.empty {w : Nat} (q : Fifo w) : Bool := q.count == 0

/-- `sat_inc_N`: one more, but never past the largest value (00_scope.md R9). -/
def satInc {n : Nat} (v : BitVec n) : BitVec n := if v.toNat < 2 ^ n - 1 then v + 1 else v

/-- The value GET_STATUS answers: bit 0 the state, bit 1 the interrupt enable, the rest 0 (45_query.md R202). -/
def statusValue (irq : Bool) (st : Lifecycle) : Word := (0 : BitVec 30) ++ BitVec.ofBool irq ++ st.code

end Sys2Proof.Machine
end

