-- ==== Sys2Proof/Machine/FifoEngine.lean ====
section
/-!
DEFINITION. The FIFO engine (40_fifo_engine.md), generic in element width and capacity (00_scope.md R6): its three
operations, its request port (30_encoding.md R78) and the least widths of its fields (R6).
-/

namespace Sys2Proof.Machine

/-- FIFO_INIT: count and indices to 0, storage unchanged (R101). -/
def Fifo.init {w : Nat} (q : Fifo w) : Fifo w :=
  { q with count := 0, writeIndex := 0, readIndex := 0 }

/-- FIFO_TRY_PUSH: refused when full, with no effect; else the value goes to `storage[writeIndex]` and count and
writeIndex advance, writeIndex modulo the capacity (R102). The Bool is `fok`. -/
def Fifo.tryPush {w : Nat} (v : BitVec w) (q : Fifo w) : Fifo w × Bool :=
  if q.full then (q, false)
  else
    ({ q with
        storage := q.storage.set q.writeIndex v
        count := q.count + 1
        writeIndex := (q.writeIndex + 1) % q.capacity }, true)

/-- FIFO_TRY_POP: refused when empty, with no effect and any value (`draw`, R103); else the value at
`storage[readIndex]`, and count and readIndex advance, readIndex modulo the capacity. The reply holds `fok` and
`frdata`. -/
def Fifo.tryPop {w : Nat} (draw : BitVec w) (q : Fifo w) : Fifo w × FifoReply w :=
  if q.empty then (q, { fok := false, frdata := draw })
  else
    ({ q with count := q.count - 1, readIndex := (q.readIndex + 1) % q.capacity },
      { fok := true, frdata := (q.storage[q.readIndex]?).getD draw })

/-- One request at the engine's port: `fop` selects no operation, push, pop or init (30_encoding.md R78, R105). An idle
request has no reply; where the spec states no `frdata` it is the free value `draw` (log 8). -/
def Fifo.serve {w : Nat} (r : FifoRequest w) (draw : BitVec w) (q : Fifo w) : Fifo w × Option (FifoReply w) :=
  match r.fop.toNat with
  | 0 => (q, none)
  | 1 => let p := q.tryPush r.fwdata; (p.1, some { fok := p.2, frdata := draw })
  | 2 => let p := q.tryPop draw; (p.1, some p.2)
  | _ => (q.init, some { fok := true, frdata := draw })

/-- ceil(log2 n) for n ≥ 1. -/
def ceilLog2 (n : Nat) : Nat := if n ≤ 1 then 0 else Nat.log2 (n - 1) + 1

/-- IDX_W, the width of the indices (00_scope.md R6). -/
def idxWidth (capacity : Nat) : Nat := max 1 (ceilLog2 capacity)

/-- CNT_W, the width of the count (00_scope.md R6). -/
def cntWidth (capacity : Nat) : Nat := ceilLog2 (capacity + 1)

end Sys2Proof.Machine
end

