-- ==== Sys2Proof/Machine/Operands.lean ====
section
/-!
DEFINITION. Operand forms of the commands and the response word: the i-th byte of a buffer (20_memory.md R54), the
checks of an operand and of the state in the order each command gives (60_exceptions.md R225), and the response word
(30_encoding.md R74).
-/

namespace Sys2Proof.Machine

/-- The address of byte i of a buffer: (base + i) mod 2^32 (20_memory.md R54). -/
def bufferAddr (base : Word) (i : Nat) : Word := base + BitVec.ofNat 32 i

/-- A base operand of 0 is the null pointer (20_memory.md R56). -/
def isNull (base : Word) : Bool := base == 0

/-- The response word `{value[31:0], result[3:0]}` (30_encoding.md R74). -/
def responseWord (r : ResultCode) (value : Word) : BitVec 36 := value ++ r.code

/-- READ's checks, in order: state, maxLength, destination (43_drain.md R160). `none`: the drain goes on. -/
def readCheck (st : Lifecycle) (dst maxLength : Word) : Option ResultCode :=
  if st = .closed then some .notOpen
  else if maxLength = 0 then some .success
  else if isNull dst then some .invalidArgument
  else none

/-- SEND_BYTE's check: the state alone (44_transmit.md R180). -/
def sendByteCheck (st : Lifecycle) : Option ResultCode :=
  if st = .closed then some .notOpen else none

/-- SEND_STRING's checks, in order: state, source (44_transmit.md R180). -/
def sendStringCheck (st : Lifecycle) (src : Word) : Option ResultCode :=
  if st = .closed then some .notOpen
  else if isNull src then some .invalidArgument
  else none

/-- SEND_ARRAY's checks, in order: state, source, length (44_transmit.md R180). -/
def sendArrayCheck (st : Lifecycle) (src length : Word) : Option ResultCode :=
  if st = .closed then some .notOpen
  else if isNull src then some .invalidArgument
  else if length = 0 then some .invalidArgument
  else none

end Sys2Proof.Machine
end

