-- ==== Sys2Proof/Machine/Ops.lean ====
section
/-!
DEFINITION. The named operations the meanings share: host memory (20_memory.md R52, R53), the command handshake and the
response (30_encoding.md R72, R74), output events (R77), the HostBusFault stop and the reset that alone ends it
(60_exceptions.md R226, 70_reset_and_hazards.md R260), the elaboration of a block (00_scope.md R7).
-/

namespace Sys2Proof.Machine

/-! ### Host memory -/

/-- The byte listed at an address, if one is. -/
def memLookup : Memory → Nat → Option Byte
  | [], _ => none
  | (k, v) :: m, a => if a = k then some v else memLookup m a

/-- List a byte at an address, keeping the addresses strictly rising. -/
def memInsert : Memory → Nat → Byte → Memory
  | [], a, v => [(a, v)]
  | (k, u) :: m, a, v =>
    if a < k then (a, v) :: (k, u) :: m
    else if a = k then (a, v) :: m
    else (k, u) :: memInsert m a v

/-- Every listed address is at least `lo` and below 2^32, and they rise strictly. -/
def memFrom (lo : Nat) : Memory → Bool
  | [] => true
  | (k, _) :: m => decide (lo ≤ k) && decide (k < 2 ^ 32) && memFrom (k + 1) m

/-- The canonical form of host memory: addresses strictly rising, all below 2^32. An unlisted address has no listed
value, so no entry can equal what it reads as. -/
def Memory.wf (m : Memory) : Bool := memFrom 0 m

/-- The byte a memory holds at an address: the listed one, else a free value (R52, R55; log 7). -/
def memByte (m : Memory) (a : Word) : Byte := (memLookup m a.toNat).getD (Config.hostInitialByte a)

/-- The byte host memory holds at an address (R52). -/
def State.hostByte (s : State) (a : Word) : Byte := memByte s.mem a

/-- Write one byte of host memory. -/
def State.setHostByte (s : State) (a : Word) (v : Byte) : State := { s with mem := memInsert s.mem a.toNat v }

/-- Does a region admit an access? -/
def regionAdmits (r : Region) (a : Word) (k : AccessKind) : Bool :=
  decide (r.base ≤ a.toNat) && decide (a.toNat < r.base + r.size) &&
    (match k with
      | .read => r.canRead
      | .write => r.canWrite)

/-- `HostMem.admits(addr, k)` (20_memory.md R52): some region admits the access. -/
def State.admits (s : State) (a : Word) (k : AccessKind) : Bool := s.hostMem.any fun r => regionAdmits r a k

/-- MemRead of one byte (20_memory.md R53). `none`: HostMem does not admit it, the caller raises HostBusFault. -/
def State.memRead (s : State) (a : Word) : Option Byte :=
  if s.admits a .read then some (s.hostByte a) else none

/-- MemWrite of one byte (20_memory.md R53). `none`: HostMem does not admit it, the caller raises HostBusFault and
memory is unchanged. -/
def State.memWrite (s : State) (a : Word) (v : Byte) : Option State :=
  if s.admits a .write then some (s.setHostByte a v) else none

/-! ### The command port and the outputs -/

/-- A command is accepted only when no send is busy and the block is not faulted (30_encoding.md R72). -/
def State.ready (s : State) : Bool := s.send == .idle && !s.faulted

/-- Accepting takes the word off the port (R72). -/
def State.takeCommand (s : State) : State := { s with cmdPort := none }

/-- `respond(result, value)`: one response word (00_scope.md R11, 30_encoding.md R74). The host then waits on only for a
command already held at the port (log 14). -/
def State.respond (s : State) (r : ResultCode) (value : Word) : State :=
  { s with responses := s.responses ++ [responseWord r value], awaiting := s.cmdPort.isSome }

/-- `emit`: one output event at the end of the trace (00_scope.md R11, 30_encoding.md R77). -/
def State.emit (s : State) (e : OutputEvent) : State := { s with trace := s.trace ++ [e] }

/-- One command at the command port: its effect where the port can accept it; else the port holds it, not accepted and
not lost (30_encoding.md R72). -/
def onCommandPort (s : State) (effect : State → State) : Host.Outcome State Fault Refusal :=
  if s.ready then .next (effect s.takeCommand) else .next s

/-! ### The HostBusFault stop, and reset -/

/-- `raise HostBusFault(addr)` (60_exceptions.md R226): the fault bit set, the receive interrupt disabled, no response;
everything else as it is. The address is the model's record of the outcome (log 1). -/
def State.raiseHostBusFault (s : State) (a : Word) : State :=
  { s with faulted := true, rxIrqEnable := false, faultAddr := some a }

/-- Power-up reset as a step (70_reset_and_hazards.md R260), the only step that ends a HostBusFault stop. No output
event, no response; storage, host memory, what the agents hold at the ports (log 3, 14, 15) and the FIFO engine instance
beside the block (log 10) are unchanged. -/
def State.powerReset (s : State) : State :=
  { s with
    state := .closed
    rxIrqEnable := false
    rxQueue := s.rxQueue.init
    lastError := .success
    dropped := 0
    send := .idle
    faulted := false
    faultAddr := none }

/-- May a FIFO engine instance have this capacity? Not 0, nor over 2^32 - 1 (00_scope.md R6, R7). -/
def legalCapacity (capacity : Nat) : Bool := decide (1 ≤ capacity) && decide (capacity ≤ 2 ^ 32 - 1)

/-- Elaborate a block, and the FIFO engine instance of its own beside it, for their capacities and a host-memory map; an
instance with an illegal capacity is refused (00_scope.md R6, R7). -/
def elaborate (capacity fifoCapacity : Nat) (hostMem : List Region) : Host.Outcome State Fault Refusal :=
  if legalCapacity capacity then
    if legalCapacity fifoCapacity then .next (State.powerUp capacity fifoCapacity hostMem)
    else .refused (.illegalCapacity fifoCapacity)
  else .refused (.illegalCapacity capacity)

end Sys2Proof.Machine
end

