-- ==== Sys2Proof/Machine/Drain.lean ====
section
/-!
DEFINITION. The drain, READ (43_drain.md).
-/

namespace Sys2Proof.Machine

/-- n pops, each followed by the write of the popped byte at the next destination address (R161). The Bool says that all
n were done; else the block is stopped by the HostBusFault of a write HostMem did not admit, that byte popped and lost
(R164). -/
def drain : Nat → Word → State → State × Bool
  | 0, _, s => (s, true)
  | n + 1, a, s =>
    let p := s.rxQueue.tryPop (Config.freeData 8 s.draws)
    let s1 := { s with rxQueue := p.1 }
    match s1.memWrite a p.2.frdata with
    | some s2 => drain n (a + 1) s2
    | none => (s1.raiseHostBusFault a, false)

/-- The critical section of a READ whose checks passed (R161): the receive interrupt off, n = min(count, maxLength) pops
and writes, the interrupt on, the response. A HostBusFault leaves the interrupt off and answers nothing (R164). -/
def readEffect (dst maxLength : Word) (s : State) : State :=
  let n := min s.rxQueue.count maxLength.toNat
  let r := drain n dst { s with rxIrqEnable := false }
  if r.2 then ({ r.1 with rxIrqEnable := true }).respond .success (BitVec.ofNat 32 n) else r.1

/-- READ (R160, R161). -/
def execRead (dst maxLength : Word) (s : State) : Host.Outcome State Fault Refusal :=
  onCommandPort s fun s =>
    match readCheck s.state dst maxLength with
    | some r => s.respond r 0
    | none => readEffect dst maxLength s

end Sys2Proof.Machine
end

