-- ==== Sys2Proof/Machine/FifoPort.lean ====
section
/-!
DEFINITION. The FIFO engine's port, format F (30_encoding.md R78), as an instruction port: served on a FIFO engine instance
of its own, apart from the block, whose receive queue no bare request reaches (10_state.md R25; log 10). A served request
leaves the port; its reply stands in `fifoReply`.
-/

namespace Sys2Proof.Machine

/-- Serve one request at the port of the instance of its own (R78, R105): it never waits (40_fifo_engine.md R100), and
the block's state has no say in it (log 10). A request with a reply takes one free value (log 8); an idle request takes
none, gives no reply and changes nothing. -/
def onFifoPort (r : FifoRequest 8) (s : State) : Host.Outcome State Fault Refusal :=
  let p := s.fifoEngine.serve r (Config.freeData 8 s.draws)
  match p.2 with
  | none => .next { s with fifoPort := none }
  | some reply =>
    .next { s with fifoPort := none, fifoEngine := p.1, fifoReply := some reply, draws := s.draws + 1 }

/-- FIFO_IDLE (R78): no operation. -/
def execFifoIdle (ignData : Byte) (s : State) : Host.Outcome State Fault Refusal :=
  onFifoPort { fop := 0, fwdata := ignData } s

/-- FIFO_TRY_PUSH (R102). -/
def execFifoTryPush (value : Byte) (s : State) : Host.Outcome State Fault Refusal :=
  onFifoPort { fop := 1, fwdata := value } s

/-- FIFO_TRY_POP (R103). -/
def execFifoTryPop (ignData : Byte) (s : State) : Host.Outcome State Fault Refusal :=
  onFifoPort { fop := 2, fwdata := ignData } s

/-- FIFO_INIT (R101). -/
def execFifoInit (ignData : Byte) (s : State) : Host.Outcome State Fault Refusal :=
  onFifoPort { fop := 3, fwdata := ignData } s

end Sys2Proof.Machine
end

