-- ==== Sys2Proof/Machine/Lifecycle.lean ====
section
/-!
DEFINITION. The lifecycle commands OPEN and CLOSE (41_line_control.md).
-/

namespace Sys2Proof.Machine

/-- OPEN's effect in Closed: configure the line, reset the queue, the last error and the drop count, enable the receive
interrupt, enter Open (R121). -/
def openEffect (baud : Word) (s : State) : State :=
  ({ s.emit (.configureLine baud) with
      rxQueue := s.rxQueue.init
      lastError := .success
      dropped := 0
      rxIrqEnable := true
      state := .opened }).respond .success 0

/-- OPEN (R121, R122): AlreadyOpen without any side effect when Open; `b` is ignored. -/
def execOpenLine (baud _ignB : Word) (s : State) : Host.Outcome State Fault Refusal :=
  onCommandPort s fun s =>
    match s.state with
    | .opened => s.respond .alreadyOpen 0
    | .closed => openEffect baud s

/-- CLOSE (R124): NotOpen and nothing else when Closed; else the receive interrupt off and Closed, the queue, the last
error and the drop count kept. -/
def execClose (_ignA _ignB : Word) (s : State) : Host.Outcome State Fault Refusal :=
  onCommandPort s fun s =>
    match s.state with
    | .closed => s.respond .notOpen 0
    | .opened => ({ s with rxIrqEnable := false, state := .closed }).respond .success 0

end Sys2Proof.Machine
end

