-- ==== Sys2Proof/Machine/Query.lean ====
section
/-!
DEFINITION. The query commands and the reserved opcodes (45_query.md): each changes no state of the block.
-/

namespace Sys2Proof.Machine

/-- GET_LAST_ERROR (R200): the last classification, not cleared. -/
def execGetLastError (_ignA _ignB : Word) (s : State) : Host.Outcome State Fault Refusal :=
  onCommandPort s fun s => s.respond .success (s.lastError.code.zeroExtend 32)

/-- GET_DROPPED (R201). -/
def execGetDropped (_ignA _ignB : Word) (s : State) : Host.Outcome State Fault Refusal :=
  onCommandPort s fun s => s.respond .success s.dropped

/-- GET_STATUS (R202). -/
def execGetStatus (_ignA _ignB : Word) (s : State) : Host.Outcome State Fault Refusal :=
  onCommandPort s fun s => s.respond .success (statusValue s.rxIrqEnable s.state)

/-- GET_COUNT (R203). -/
def execGetCount (_ignA _ignB : Word) (s : State) : Host.Outcome State Fault Refusal :=
  onCommandPort s fun s => s.respond .success (BitVec.ofNat 32 s.rxQueue.count)

/-- Opcode 0x00 (R80, R204): InvalidArgument in either state, the operands ignored. -/
def execReserved00 (_ignA _ignB : Word) (s : State) : Host.Outcome State Fault Refusal :=
  onCommandPort s fun s => s.respond .invalidArgument 0

/-- Opcodes 0x0B to 0xFF (R80, R204): InvalidArgument in either state, the operands ignored. -/
def execReserved0BFF (_op : Byte) (_ignA _ignB : Word) (s : State) : Host.Outcome State Fault Refusal :=
  onCommandPort s fun s => s.respond .invalidArgument 0

end Sys2Proof.Machine
end

