-- ==== Sys2Proof/Machine/Receive.lean ====
section
/-!
DEFINITION. The receive event (42_receive.md): classification, the last error, push, discard or counted drop.
-/

namespace Sys2Proof.Machine

/-- Push a good byte, or count the drop when the queue is full (42_receive.md R142, R146). -/
def pushOrDrop (data : Byte) (s : State) : State :=
  let p := s.rxQueue.tryPush data
  if p.2 then { s with rxQueue := p.1 } else { s with dropped := satInc s.dropped }

/-- The handler's effect (R142): record the classification; discard the byte of a line-level error (R145), else push or
drop it. -/
def receiveEffect (status : BitVec 10) (data : Byte) (s : State) : State :=
  let e := classify status
  let s1 := { s with lastError := e }
  if e.isLineLevel then s1 else pushOrDrop data s1

/-- RX_EVENT (R140, R142): enabled exactly when the receive interrupt is enabled and the block is not faulted; taking the
event takes the offer (R228). Not enabled: no step, the offer stays with the device. -/
def execRxEvent (status : BitVec 10) (data : Byte) (s : State) : Host.Outcome State Fault Refusal :=
  if s.rxIrqEnable && !s.faulted then .next (receiveEffect status data { s with rxPort := none }) else .next s

end Sys2Proof.Machine
end

