-- ==== Sys2Proof/Machine/Transmit.lean ====
section
/-!
DEFINITION. The transmit commands' command steps and the transmit step (44_transmit.md).
-/

namespace Sys2Proof.Machine

/-- A send's command step: answer the first failing check and nothing else, or enter Busy without a response yet
(R180). -/
def startSend (check : Option ResultCode) (kind : SendKind) (addr remaining : Word) (s : State) : State :=
  match check with
  | some r => s.respond r 0
  | none => { s with send := .busy kind addr remaining }

/-- SEND_BYTE's command step (R181): `a[31:8]` and `b` are ignored. -/
def execSendByte (byte : Byte) (_ignAHigh : BitVec 24) (_ignB : Word) (s : State) :
    Host.Outcome State Fault Refusal :=
  onCommandPort s fun s => startSend (sendByteCheck s.state) .byte (byte.zeroExtend 32) 1 s

/-- SEND_STRING's command step (R182): `b` is ignored. -/
def execSendString (src _ignB : Word) (s : State) : Host.Outcome State Fault Refusal :=
  onCommandPort s fun s => startSend (sendStringCheck s.state src) .string src 0 s

/-- SEND_ARRAY's command step (R183). -/
def execSendArray (src length : Word) (s : State) : Host.Outcome State Fault Refusal :=
  onCommandPort s fun s => startSend (sendArrayCheck s.state src length) .array src length s

/-- The end of a send: Idle, and its response Success (R181 to R183). -/
def finishSend (s : State) : State := { s with send := .idle }.respond .success 0

/-- The transmit step of SEND_BYTE: hold until `tx_ready`, then the byte and the response (R181, R186). -/
def transmitByte (addr : Word) (s : State) : State :=
  if s.txReady then finishSend (s.emit (.writeData (addr.extractLsb' 0 8))) else s

/-- A transmit step of SEND_STRING (R182): the byte is read before the wait (R185); 0x00 ends the send unsent, whatever
`tx_ready` is (R186); another byte waits for `tx_ready`. -/
def transmitString (addr remaining : Word) (s : State) : State :=
  match s.memRead addr with
  | none => s.raiseHostBusFault addr
  | some c =>
    if c = 0 then finishSend s
    else if s.txReady then { s.emit (.writeData c) with send := .busy .string (addr + 1) remaining }
    else s

/-- A transmit step of SEND_ARRAY (R183): the byte is read before the wait (R185); the last byte's step ends the send
(log 11). -/
def transmitArray (addr remaining : Word) (s : State) : State :=
  if remaining = 0 then finishSend s
  else
    match s.memRead addr with
    | none => s.raiseHostBusFault addr
    | some c =>
      if s.txReady then
        let s1 := s.emit (.writeData c)
        if remaining - 1 = 0 then finishSend s1 else { s1 with send := .busy .array (addr + 1) (remaining - 1) }
      else s

/-- The pending transmit step of a busy send (R184): not enabled when Idle or faulted (10_state.md R30). -/
def transmitStep (s : State) : State :=
  if s.faulted then s
  else
    match s.send with
    | .idle => s
    | .busy .byte addr _ => transmitByte addr s
    | .busy .string addr remaining => transmitString addr remaining s
    | .busy .array addr remaining => transmitArray addr remaining s

end Sys2Proof.Machine
end

