-- ==== Sys2Proof/Machine/Dispatch.lean ====
section
/-! DEFINITION. One arm for each instruction, each a direct call of its meaning. -/

namespace Sys2Proof.Machine

def exec (i : Instr) (s : State) : Host.Outcome State Fault Refusal :=
  match i with
  | .openLine baud ignB => Sys2Proof.Machine.execOpenLine baud ignB s
  | .close ignA ignB => Sys2Proof.Machine.execClose ignA ignB s
  | .read dst maxLength => Sys2Proof.Machine.execRead dst maxLength s
  | .sendByte byte ignAHigh ignB => Sys2Proof.Machine.execSendByte byte ignAHigh ignB s
  | .sendString src ignB => Sys2Proof.Machine.execSendString src ignB s
  | .sendArray src length => Sys2Proof.Machine.execSendArray src length s
  | .getLastError ignA ignB => Sys2Proof.Machine.execGetLastError ignA ignB s
  | .getDropped ignA ignB => Sys2Proof.Machine.execGetDropped ignA ignB s
  | .getStatus ignA ignB => Sys2Proof.Machine.execGetStatus ignA ignB s
  | .getCount ignA ignB => Sys2Proof.Machine.execGetCount ignA ignB s
  | .reserved00 ignA ignB => Sys2Proof.Machine.execReserved00 ignA ignB s
  | .reserved0BFF op ignA ignB => Sys2Proof.Machine.execReserved0BFF op ignA ignB s
  | .rxEvent status data => Sys2Proof.Machine.execRxEvent status data s
  | .fifoIdle ignData => Sys2Proof.Machine.execFifoIdle ignData s
  | .fifoTryPush value => Sys2Proof.Machine.execFifoTryPush value s
  | .fifoTryPop ignData => Sys2Proof.Machine.execFifoTryPop ignData s
  | .fifoInit ignData => Sys2Proof.Machine.execFifoInit ignData s

end Sys2Proof.Machine
end

