-- ==== Sys2Proof/Machine/Moves.lean ====
section
/-!
DEFINITION. One move (00_scope.md R5): what each agent's step does to the ports, and the block's steps, each decoded from
the word at its port. A move whose step is not enabled changes nothing (log 2).
-/

namespace Sys2Proof.Machine

/-- The host puts a command word on the command port; the port holds one (30_encoding.md R72; log 13). -/
def issueCommand (w : BitVec 72) (s : State) : State :=
  match s.cmdPort with
  | none => { s with cmdPort := some w, awaiting := true }
  | some _ => s

/-- The block runs the command at the port, decoded; exec holds it where it cannot be accepted (R72). -/
def acceptCommand (s : State) : Host.Outcome State Fault Refusal :=
  match s.cmdPort with
  | none => .next s
  | some w => exec (decode (.command w)) s

/-- The block takes the offered receive event; exec leaves it where it is not enabled (42_receive.md R140). -/
def takeEvent (s : State) : Host.Outcome State Fault Refusal :=
  match s.rxPort with
  | none => .next s
  | some w => exec (decode (.event w)) s

/-- The FIFO engine instance of its own serves the request at its port (30_encoding.md R78; log 10). -/
def serveFifo (s : State) : Host.Outcome State Fault Refusal :=
  match s.fifoPort with
  | none => .next s
  | some w => exec (decode (.fifo w)) s

/-- The host writes a byte of its own memory: never during a command (20_memory.md R55), so only while no command waits
at the port and no send runs; a send that a HostBusFault has stopped runs no more (log 12). -/
def hostWrite (a : Word) (v : Byte) (s : State) : State :=
  if s.cmdPort = none ∧ (s.send = .idle ∨ s.faulted = true) then s.setHostByte a v else s

/-- One move, in the state whose list of moves it has left. -/
def runMove : Move → State → Host.Outcome State Fault Refusal
  | .issueCommand w, s => .next (issueCommand w s)
  | .acceptCommand, s => acceptCommand s
  | .offerEvent w, s => .next { s with rxPort := some w }
  | .takeEvent, s => takeEvent s
  | .setTxReady b, s => .next { s with txReady := b }
  | .transmit, s => .next (transmitStep s)
  | .hostWrite a v, s => .next (hostWrite a v s)
  | .powerReset, s => .next s.powerReset
  | .requestFifo w, s => .next { s with fifoPort := some w }
  | .serveFifo, s => serveFifo s

/-- Take the next move. With none left nothing happens, except that a block stopped by a HostBusFault then stays
stopped: the fault outcome, with its address (60_exceptions.md R226; log 1). -/
def nextMove (s : State) : Host.Outcome State Fault Refusal :=
  match s.moves with
  | [] => if s.faulted then .fault (.hostBusFault s.faultAddr) else .next s
  | m :: rest => runMove m { s with moves := rest }

/-- Put a word at its port and let its step be the next move: what the surroundings do so that the block runs an
instruction (log 16). -/
def presentWord (p : PortWord) (s : State) : State :=
  match p with
  | .command w => { s with cmdPort := some w, awaiting := true, moves := .acceptCommand :: s.moves }
  | .event w => { s with rxPort := some w, moves := .takeEvent :: s.moves }
  | .fifo w => { s with fifoPort := some w, moves := .serveFifo :: s.moves }

/-- The same from a row's bits; a number of bits that is no word of a port puts nothing anywhere. -/
def presentBits (nbits w : Nat) (s : State) : State :=
  match wordOfBits nbits w with
  | .ok p => presentWord p s
  | .error _ => s

end Sys2Proof.Machine
end

