-- ==== Sys2Proof/Machine/Step.lean ====
section
/-! DEFINITION. One step of the machine: the next move (60_exceptions.md R230; log 2). -/

namespace Sys2Proof.Machine

/-- One atomic step (00_scope.md R3, R5). -/
def step (s : State) : Host.Outcome State Fault Refusal := nextMove s

/-- `s` with an instruction's word at its port and its step the next move (log 16). -/
def State.withFetchWord (s : State) (nbits w : Nat) : State := presentBits nbits w s

end Sys2Proof.Machine
end

