-- ==== Sys2Proof/Machine/Assembler.lean ====
section
/-!
DEFINITION. The text form of commands and events (30_encoding.md R82) and the pseudo-instructions (R83): notation only,
no rule of the block reads it. A line is a list of characters; it becomes the moves of the host, the receiver, the
transmitter and the reset source that it stands for (log 17).
-/

namespace Sys2Proof.Machine

/-- The instructions a pseudo-instruction stands for (30_encoding.md R83); ignored operands are 0 (R82). -/
def expandPseudo : Pseudo → List Instr
  | .nop => [.getStatus 0 0]
  | .putc byte => [.sendByte byte 0 0]
  | .drain dst maxLength => [.read dst maxLength]
  | .reopen baud => [.close 0 0, .openLine baud 0]

/-- The agents' moves that bring an instruction to its port and let it be taken. -/
def instrMoves (i : Instr) : List Move :=
  match encode i with
  | .command w => [.issueCommand w, .acceptCommand]
  | .event w => [.offerEvent w, .takeEvent]
  | .fifo w => [.requestFifo w, .serveFifo]

/-- What a line is cut into: words, and the commas between operands. -/
inductive Token where
  | word (cs : List Char)
  | comma
  deriving DecidableEq, Repr

/-- A mnemonic or a hex digit is case-insensitive (R82): letters are read as capitals. -/
def upperChar (c : Char) : Char := if 'a' ≤ c ∧ c ≤ 'z' then Char.ofNat (c.toNat - 32) else c

/-- Close the word being read, if it has characters (`acc`, last first). -/
def closeWord (acc : List Char) (ts : List Token) : List Token :=
  match acc with
  | [] => ts
  | _ :: _ => .word acc.reverse :: ts

/-- Cut a line into tokens; a comment runs from `;` to the end (R82). -/
def tokens : List Char → List Char → List Token
  | [], acc => closeWord acc []
  | c :: cs, acc =>
    if c = ';' then closeWord acc []
    else if c = ' ' ∨ c = '\t' ∨ c = '\r' then closeWord acc (tokens cs [])
    else if c = ',' then closeWord acc (.comma :: tokens cs [])
    else tokens cs (upperChar c :: acc)

/-- The operands of a line: words with one comma between each two. -/
def operandWords : List Token → Option (List (List Char))
  | [] => some []
  | [.word w] => some [w]
  | .word w :: .comma :: t :: ts => (operandWords (t :: ts)).map (w :: ·)
  | _ => none

/-- The value of a digit in a base up to 16. -/
def digitValue (base : Nat) (c : Char) : Option Nat :=
  let v := if '0' ≤ c ∧ c ≤ '9' then c.toNat - 48 else if 'A' ≤ c ∧ c ≤ 'F' then c.toNat - 55 else 16
  if v < base then some v else none

/-- Digits after those already read. -/
def digitsValue (base : Nat) : List Char → Nat → Option Nat
  | [], n => some n
  | c :: cs, n => (digitValue base c).bind fun d => digitsValue base cs (base * n + d)

/-- A number: `0x` hex or decimal (R82). -/
def numberValue : List Char → Option Nat
  | [] => none
  | [c] => digitsValue 10 [c] 0
  | c :: d :: cs =>
    if c = '0' ∧ d = 'X' then (if cs = [] then none else digitsValue 16 cs 0) else digitsValue 10 (c :: d :: cs) 0

/-- An operand of `n` bits; a number that does not fit is refused. -/
def operandBits (n : Nat) (cs : List Char) : Option (BitVec n) :=
  (numberValue cs).bind fun v => if v < 2 ^ n then some (BitVec.ofNat n v) else none

/-- The flag names of 30_encoding.md R76 and their bits. -/
def flagBits : List (List Char × BitVec 10) :=
  [(['P', 'E'], 0x001), (['F', 'E'], 0x002), (['N', 'E'], 0x004), (['O', 'R', 'E'], 0x008),
   (['I', 'D', 'L', 'E'], 0x010), (['R', 'X', 'N', 'E'], 0x020), (['T', 'C'], 0x040), (['T', 'X', 'E'], 0x080),
   (['L', 'B', 'D'], 0x100), (['C', 'T', 'S'], 0x200)]

/-- Cut at every `|`. -/
def splitBar : List Char → List Char → List (List Char)
  | [], acc => [acc.reverse]
  | c :: cs, acc => if c = '|' then acc.reverse :: splitBar cs [] else splitBar cs (c :: acc)

/-- The union of named flags. -/
def flagsValue : List (List Char) → Option (BitVec 10)
  | [] => some 0
  | f :: fs => (flagBits.lookup f).bind fun b => (flagsValue fs).map (b ||| ·)

/-- A status: `-` for none, a `0x` number of 10 bits, or flag names joined by `|` (R82). -/
def statusOperand (cs : List Char) : Option (BitVec 10) :=
  if cs = ['-'] then some 0
  else
    match cs with
    | '0' :: 'X' :: _ => operandBits 10 cs
    | _ => flagsValue (splitBar cs [])

/-- A line without operands. -/
def noOperand (ops : List (List Char)) (is : List Instr) : Option (List Instr) :=
  match ops with
  | [] => some is
  | _ :: _ => none

/-- A line with one operand of `n` bits. -/
def oneOperand (n : Nat) (ops : List (List Char)) (f : BitVec n → List Instr) : Option (List Instr) :=
  match ops with
  | [x] => (operandBits n x).map f
  | _ => none

/-- A line with two 32-bit operands. -/
def twoOperands (ops : List (List Char)) (f : BitVec 32 → BitVec 32 → List Instr) : Option (List Instr) :=
  match ops with
  | [x, y] => (operandBits 32 x).bind fun a => (operandBits 32 y).map (f a)
  | _ => none

/-- The commands, their pseudo-instructions and the receive event, by mnemonic (R82, R83). -/
def assembleInstrs (m : List Char) (ops : List (List Char)) : Option (List Instr) :=
  if m = "OPEN".toList then oneOperand 32 ops fun a => [.openLine a 0]
  else if m = "CLOSE".toList then noOperand ops [.close 0 0]
  else if m = "READ".toList then twoOperands ops fun a b => [.read a b]
  else if m = "SEND_BYTE".toList then oneOperand 8 ops fun v => [.sendByte v 0 0]
  else if m = "SEND_STRING".toList then oneOperand 32 ops fun a => [.sendString a 0]
  else if m = "SEND_ARRAY".toList then twoOperands ops fun a b => [.sendArray a b]
  else if m = "GET_LAST_ERROR".toList then noOperand ops [.getLastError 0 0]
  else if m = "GET_DROPPED".toList then noOperand ops [.getDropped 0 0]
  else if m = "GET_STATUS".toList then noOperand ops [.getStatus 0 0]
  else if m = "GET_COUNT".toList then noOperand ops [.getCount 0 0]
  else if m = "NOP".toList then noOperand ops (expandPseudo .nop)
  else if m = "PUTC".toList then oneOperand 8 ops fun v => expandPseudo (.putc v)
  else if m = "DRAIN".toList then twoOperands ops fun a b => expandPseudo (.drain a b)
  else if m = "REOPEN".toList then oneOperand 32 ops fun a => expandPseudo (.reopen a)
  else if m = "RX".toList then
    match ops with
    | [x, y] => (statusOperand x).bind fun st => (operandBits 8 y).map fun d => [.rxEvent st d]
    | _ => none
  else none

/-- One line of text as the moves it stands for; an empty line is none, a line of another form is refused (R82). -/
def assembleLine (cs : List Char) : Option (List Move) :=
  match tokens cs [] with
  | [] => some []
  | .comma :: _ => none
  | .word m :: rest =>
    (operandWords rest).bind fun ops =>
      if m = "TXREADY".toList then
        match ops with
        | [x] => (operandBits 1 x).map fun b => [.setTxReady (b.getLsbD 0)]
        | _ => none
      else if m = "RESET".toList then
        match ops with
        | [] => some [.powerReset]
        | _ :: _ => none
      else (assembleInstrs m ops).map fun is => is.flatMap instrMoves

/-- A text, line by line. -/
def assemble : List (List Char) → Option (List Move)
  | [] => some []
  | l :: ls => (assembleLine l).bind fun ms => (assemble ls).map (ms ++ ·)

end Sys2Proof.Machine
end

