-- ==== Sys2Proof/Safety.lean ====
section
/-!
DEFINITION. The terms claims are made in: what a FIFO engine holds, the invariant of the machine, what a host can tell
of two states, and when a run is over.
-/

namespace Sys2Proof.Machine

/-! ### The FIFO engine's contents and its runs -/

/-- The queued elements, oldest first: the `count` entries from `readIndex` on, modulo the capacity (10_state.md R33). -/
def Fifo.contents {w : Nat} (q : Fifo w) : List (BitVec w) :=
  (List.range q.count).map fun i => (q.storage[(q.readIndex + i) % q.capacity]?).getD 0

/-- The invariant of a FIFO engine (10_state.md R21, R22): a legal capacity, count and indices in range, storage of
`capacity` entries, and the relation of writeIndex to readIndex and count. -/
structure Fifo.Inv {w : Nat} (q : Fifo w) : Prop where
  capacity_pos : 1 ≤ q.capacity
  capacity_le : q.capacity ≤ 2 ^ 32 - 1
  count_le : q.count ≤ q.capacity
  writeIndex_lt : q.writeIndex < q.capacity
  readIndex_lt : q.readIndex < q.capacity
  storage_length : q.storage.length = q.capacity
  writeIndex_eq : q.writeIndex = (q.readIndex + q.count) % q.capacity

/-- Serve requests one after another, with a free value for each; the engine and the replies, in order (40_fifo_engine.md
R105: one request per step). -/
def Fifo.run {w : Nat} (draw : Nat → BitVec w) : List (FifoRequest w) → Fifo w → Fifo w × List (Option (FifoReply w))
  | [], q => (q, [])
  | r :: rs, q =>
    let p := q.serve r (draw rs.length)
    let t := Fifo.run draw rs p.1
    (t.1, p.2 :: t.2)

/-- The values successfully pushed by requests, given their replies, in order. -/
def pushedValues {w : Nat} : List (FifoRequest w) → List (Option (FifoReply w)) → List (BitVec w)
  | r :: rs, some reply :: ps =>
    if r.fop = 1 ∧ reply.fok = true then r.fwdata :: pushedValues rs ps else pushedValues rs ps
  | _ :: rs, none :: ps => pushedValues rs ps
  | _, _ => []

/-- The values successfully popped by requests, given their replies, in order. -/
def poppedValues {w : Nat} : List (FifoRequest w) → List (Option (FifoReply w)) → List (BitVec w)
  | r :: rs, some reply :: ps =>
    if r.fop = 2 ∧ reply.fok = true then reply.frdata :: poppedValues rs ps else poppedValues rs ps
  | _ :: rs, none :: ps => poppedValues rs ps
  | _, _ => []

/-! ### The machine's invariant -/

/-- The legal values of `st.lastError` (10_state.md R26). -/
def ResultCode.legalLastError : ResultCode → Bool
  | .success => true
  | .framingError => true
  | .parityError => true
  | .lineBreakError => true
  | .noiseError => true
  | .overrunError => true
  | .invalidArgument => false
  | .notOpen => false
  | .alreadyOpen => false
  | .queueFull => false
  | .queueEmpty => false

/-- The legal values of `st.send` (10_state.md R29): SEND_BYTE keeps its byte in addr[7:0] and a remaining of 1,
SEND_STRING a remaining of 0, SEND_ARRAY a remaining of at least 1. -/
def SendEngine.legal : SendEngine → Bool
  | .idle => true
  | .busy .byte addr remaining => decide (addr.toNat < 2 ^ 8) && decide (remaining = 1)
  | .busy .string _ remaining => decide (remaining = 0)
  | .busy .array _ remaining => decide (remaining ≠ 0)

/-- What holds at every step boundary of a machine started by power-up. -/
structure State.Inv (s : State) : Prop where
  /-- The queue's invariant (R22). -/
  queue : s.rxQueue.Inv
  /-- The invariant of the FIFO engine instance of its own (R22; log 10). -/
  engine : s.fifoEngine.Inv
  /-- The legal values of the last error (R26). -/
  lastError : s.lastError.legalLastError = true
  /-- rxIrqEnable is 1 exactly when Open and not faulted (R27). -/
  irq : s.rxIrqEnable = (decide (s.state = .opened) && !s.faulted)
  /-- The legal values of the send engine (R29). -/
  send : s.send.legal = true
  /-- A busy send is one of an Open block: no CLOSE intervenes (44_transmit.md R189). -/
  sendOpen : s.send ≠ .idle → s.state = .opened
  /-- Host memory keeps its canonical form. -/
  mem : s.mem.wf = true
  /-- The model's record of the fault's address stands exactly while the block is faulted (log 1). -/
  faultAddr : s.faultAddr.isSome = s.faulted
  /-- A command at the port, or a busy send, is one whose response the host awaits (30_encoding.md R72; log 14). -/
  awaiting : s.cmdPort.isSome = true ∨ s.send ≠ .idle → s.awaiting = true

/-! ### What an observer can tell -/

/-- Two engines that hold the same elements at the same places and differ at most in the storage entries that hold no
queued element (10_state.md R33, R36). -/
structure Fifo.SameVisible {w : Nat} (q r : Fifo w) : Prop where
  capacity : q.capacity = r.capacity
  count : q.count = r.count
  writeIndex : q.writeIndex = r.writeIndex
  readIndex : q.readIndex = r.readIndex
  contents : q.contents = r.contents

/-- Two states equal in everything but the storage entries, of the receive queue and of the FIFO engine instance of its own,
that hold no queued element (R33). -/
structure State.SameVisible (s t : State) : Prop where
  queue : s.rxQueue.SameVisible t.rxQueue
  engine : s.fifoEngine.SameVisible t.fifoEngine
  rest : s = { t with rxQueue := s.rxQueue, fifoEngine := s.fifoEngine }

/-- Outcomes related as their states are. -/
def OutcomesRelated (R : State → State → Prop) :
    Host.Outcome State Fault Refusal → Host.Outcome State Fault Refusal → Prop
  | .next s, .next t => R s t
  | .fault r, .fault r' => r = r'
  | .refused r, .refused r' => r = r'
  | _, _ => False

/-! ### The end of a run -/

/-- A run is over: the host has the response of its last command, no send is busy, the block is not faulted
(70_reset_and_hazards.md R278). The three conditions are read at the boundary alone. R278 also says that a faulted run
"never becomes over" and leaves open whether what follows a reset (R260) of a faulted block is still that run; here it is
a new run, which can be over (DESIGN CHOICE, log 20). -/
def State.runOver (s : State) : Bool := !s.awaiting && s.send == .idle && !s.faulted

end Sys2Proof.Machine
end

