-- ==== Sys2Proof/Certificates/Slice0/Obligations.lean ====
section
/-!
DEFINITION. The statements about the machine, each a `def Obligations.<Name> : Prop`. "Ready" below means that the
command port can accept: no send is busy and the block is not faulted (30_encoding.md R72). Result words are written out:
`value ++ code`, value in bits 35..4, code in bits 3..0 (30_encoding.md R74, R75). The fields `awaiting`, `faultAddr`,
`draws` and `moves` are the model's own (log 14, 1, 8, 2): where a statement formalises a numbered rule, the value such a
field gets is left open (`aw`); `OutputsGrowByRule` says what it gets. The FIFO engine instance beside the block
(`fifoEngine` and its port) is log 10's.
-/

open Sys2Proof Sys2Proof.Machine

/-! ### Encoding -/

/-- Decode and encode agree: every well-formed instruction, with every operand at every value, is what the decoder reads
from its word (30_encoding.md R71, R73, R76, R78, R79). -/
def Obligations.DecodeOfEncode : Prop :=
  ∀ i : Instr, i.wf = true → decode (encode i) = i

/-- The other direction: every word of every port is the word of the well-formed instruction it decodes to, so that each
word has one meaning and no bit is dropped. -/
def Obligations.EncodeOfDecode : Prop :=
  ∀ p : PortWord, encode (decode p) = p ∧ (decode p).wf = true

/-- Words written out from the formats, as 95_test_vectors.md writes them, decode to what they stand for; the FIFO words'
packing is the model's (log 9). -/
def Obligations.WrittenWordsDecode : Prop :=
  decode (.command 0x000000000000258001#72) = .openLine 9600 0 ∧
  decode (.command 0x000000000000000002#72) = .close 0 0 ∧
  decode (.command 0x000000020000010003#72) = .read 0x100 2 ∧
  decode (.command 0x000000001234564104#72) = .sendByte 0x41 0x123456 0 ∧
  decode (.command 0x000000030000050006#72) = .sendArray 0x500 3 ∧
  decode (.command 0x00000000000000000A#72) = .getCount 0 0 ∧
  decode (.command 0xFFFFFFFFFFFFFFFFFF#72) = .reserved0BFF 0xFF 0xFFFFFFFF 0xFFFFFFFF ∧
  decode (.event 0b000000001000110001#18) = .rxEvent 0x002 0x31 ∧
  decode (.fifo 0b0100010101#10) = .fifoTryPush 0x45

/-- The opcode map of the command port, all 256 opcodes, with the fields `op = cmd[7:0]`, `a = cmd[39:8]`,
`b = cmd[71:40]` written as arithmetic, and the one meaning of the event port (30_encoding.md R79). -/
def Obligations.OpcodeMap : Prop :=
  (∀ w : BitVec 72,
    let op := w.toNat % 2 ^ 8
    let a := BitVec.ofNat 32 (w.toNat / 2 ^ 8)
    let b := BitVec.ofNat 32 (w.toNat / 2 ^ 40)
    (op = 0x01 → decode (.command w) = .openLine a b) ∧
    (op = 0x02 → decode (.command w) = .close a b) ∧
    (op = 0x03 → decode (.command w) = .read a b) ∧
    (op = 0x04 → decode (.command w) =
      .sendByte (BitVec.ofNat 8 (w.toNat / 2 ^ 8)) (BitVec.ofNat 24 (w.toNat / 2 ^ 16)) b) ∧
    (op = 0x05 → decode (.command w) = .sendString a b) ∧
    (op = 0x06 → decode (.command w) = .sendArray a b) ∧
    (op = 0x07 → decode (.command w) = .getLastError a b) ∧
    (op = 0x08 → decode (.command w) = .getDropped a b) ∧
    (op = 0x09 → decode (.command w) = .getStatus a b) ∧
    (op = 0x0A → decode (.command w) = .getCount a b) ∧
    (op = 0x00 → decode (.command w) = .reserved00 a b) ∧
    (0x0B ≤ op → decode (.command w) = .reserved0BFF (BitVec.ofNat 8 op) a b)) ∧
  (∀ w : BitVec 18,
    decode (.event w) = .rxEvent (BitVec.ofNat 10 (w.toNat / 2 ^ 8)) (BitVec.ofNat 8 w.toNat))

/-- The FIFO engine's port: `fop` selects the operation (30_encoding.md R78); `fop` stands in the two low bits and
`fwdata` above it, which is the model's packing (log 9). -/
def Obligations.FifoPortMap : Prop :=
  ∀ w : BitVec 10,
    let d := BitVec.ofNat 8 (w.toNat / 4)
    (w.toNat % 4 = 0 → decode (.fifo w) = .fifoIdle d) ∧
    (w.toNat % 4 = 1 → decode (.fifo w) = .fifoTryPush d) ∧
    (w.toNat % 4 = 2 → decode (.fifo w) = .fifoTryPop d) ∧
    (w.toNat % 4 = 3 → decode (.fifo w) = .fifoInit d)

/-- "An ignored field has no effect on any state, output or response, whatever its value" (30_encoding.md R73): two
command words with the same opcode that agree in the fields the opcode uses (READ and SEND_ARRAY: a and b; OPEN and
SEND_STRING: a; SEND_BYTE: a[7:0]; every other opcode: none) have the same step. -/
def Obligations.IgnoredOperandsHaveNoEffect : Prop :=
  ∀ (w w' : BitVec 72) (s : State),
    let op := w.toNat % 2 ^ 8
    let used := if op = 0x03 ∨ op = 0x06 then 72 else if op = 0x01 ∨ op = 0x05 then 40 else if op = 0x04 then 16 else 8
    w.toNat % 2 ^ used = w'.toNat % 2 ^ used →
      exec (decode (.command w)) s = exec (decode (.command w')) s

/-! ### The step and the ports -/

/-- A step whose next move takes the word at a port runs the instruction that word is, in the state whose list of moves
that move has left. That a request at the FIFO engine's port is a step of its own, on an instance of its own beside the
block, is the model's choice (log 10). -/
def Obligations.StepRunsTheDecodedInstruction : Prop :=
  ∀ (s : State) (rest : List Move) (i : Instr), i.wf = true →
    (∀ w, s.moves = .acceptCommand :: rest → s.cmdPort = some w → encode i = .command w →
      step s = exec i { s with moves := rest }) ∧
    (∀ w, s.moves = .takeEvent :: rest → s.rxPort = some w → encode i = .event w →
      step s = exec i { s with moves := rest }) ∧
    (∀ w, s.moves = .serveFifo :: rest → s.fifoPort = some w → encode i = .fifo w →
      step s = exec i { s with moves := rest })

/-- The state with an instruction's word placed for the next step runs that instruction with its word at its port and
nothing else changed (log 16: the model's way to place a word). -/
def Obligations.PlacedWordRunsNext : Prop :=
  ∀ (s : State) (nbits w : Nat) (i : Instr), decodeTableWord nbits w = some i →
    (∀ c, encode i = .command c → step (s.withFetchWord nbits w) = exec i { s with cmdPort := some c, awaiting := true }) ∧
    (∀ e, encode i = .event e → step (s.withFetchWord nbits w) = exec i { s with rxPort := some e }) ∧
    (∀ f, encode i = .fifo f → step (s.withFetchWord nbits w) = exec i { s with fifoPort := some f })

/-- A command that cannot be accepted is held: not accepted, not lost, no effect at all (30_encoding.md R72). -/
def Obligations.CommandIsHeldWhileBusyOrFaulted : Prop :=
  ∀ (i : Instr) (s : State), (encode i).port = .command → s.send ≠ .idle ∨ s.faulted = true →
    exec i s = .next s

/-- What the agents' own moves do: the host's word reaches an empty command port, the host then waiting (log 14), and never
displaces one that waits there (30_encoding.md R72; log 13); an offered event stands at the receive port, in the place of
an earlier offer where one stood (R76; log 18); `tx_ready` is as the device sets it (R77); the host writes its memory only
outside a command (20_memory.md R55; the moment is log 12); a request reaches the port of the FIFO engine instance of its
own, in the place of an earlier one (log 10, log 18). -/
def Obligations.AgentMoves : Prop :=
  ∀ (s : State) (rest : List Move),
    (∀ w, s.moves = .issueCommand w :: rest →
      (s.cmdPort = none → step s = .next { s with moves := rest, cmdPort := some w, awaiting := true }) ∧
      (s.cmdPort ≠ none → step s = .next { s with moves := rest })) ∧
    (∀ w, s.moves = .offerEvent w :: rest → step s = .next { s with moves := rest, rxPort := some w }) ∧
    (∀ b, s.moves = .setTxReady b :: rest → step s = .next { s with moves := rest, txReady := b }) ∧
    (∀ w, s.moves = .requestFifo w :: rest → step s = .next { s with moves := rest, fifoPort := some w }) ∧
    (∀ a v, s.moves = .hostWrite a v :: rest →
      (s.cmdPort = none → s.send = .idle ∨ s.faulted = true →
        ∃ m, step s = .next { s with moves := rest, mem := m } ∧
          ∀ b, memByte m b = if b = a then v else s.hostByte b) ∧
      (s.cmdPort ≠ none ∨ (s.send ≠ .idle ∧ s.faulted = false) → step s = .next { s with moves := rest }))

/-- The machine stops only when a HostBusFault has stopped the block and no move is left; every other step answers a next
state, and none is refused (60_exceptions.md R226; the fault outcome is the model's choice, log 1). -/
def Obligations.OnlyAStoppedBlockFaults : Prop :=
  ∀ s : State,
    (s.moves = [] ∧ s.faulted = true → step s = .fault (.hostBusFault s.faultAddr)) ∧
    (s.moves ≠ [] ∨ s.faulted = false → ∃ t, step s = .next t)

/-! ### OPEN and CLOSE -/

/-- OPEN (41_line_control.md R121): Closed, it configures the line, empties the queue, clears the last error and the drop
count, enables the receive interrupt and enters Open; Open, it answers AlreadyOpen with no side effect. Everything else
is unchanged. -/
def Obligations.OpenResult : Prop :=
  ∀ (baud b : Word) (s : State),
    encode (.openLine baud b) = .command (b ++ baud ++ 0x01#8) ∧
    (s.send = .idle → s.faulted = false →
      (s.state = .closed →
        ∃ aw, exec (.openLine baud b) s = .next
          { s with
            cmdPort := none, awaiting := aw, responses := s.responses ++ [(0#32 ++ 0x0#4)]
            trace := s.trace ++ [.configureLine baud]
            rxQueue := { s.rxQueue with count := 0, writeIndex := 0, readIndex := 0 }
            lastError := .success, dropped := 0, rxIrqEnable := true, state := .opened }) ∧
      (s.state = .opened →
        ∃ aw, exec (.openLine baud b) s = .next
          { s with cmdPort := none, awaiting := aw, responses := s.responses ++ [(0#32 ++ 0x3#4)] }))

/-- CLOSE (41_line_control.md R124): Open, it disables the receive interrupt and enters Closed, keeping the queue, the
last error and the drop count, which stay readable; a READ that follows answers NotOpen and an OPEN that follows empties
the queue. Closed, it answers NotOpen and touches nothing. -/
def Obligations.CloseResult : Prop :=
  ∀ (a b : Word) (s : State),
    encode (.close a b) = .command (b ++ a ++ 0x02#8) ∧
    (s.send = .idle → s.faulted = false →
      (s.state = .opened →
        ∃ t aw, exec (.close a b) s = .next t ∧
          t = { s with
            cmdPort := none, awaiting := aw, responses := s.responses ++ [(0#32 ++ 0x0#4)]
            rxIrqEnable := false, state := .closed } ∧
          (∀ dst n, exec (.read dst n) t = .next { t with responses := t.responses ++ [(0#32 ++ 0x2#4)] }) ∧
          (∀ baud b', ∃ u, exec (.openLine baud b') t = .next u ∧ u.rxQueue.count = 0) ∧
          (∀ x y, ∃ u, exec (.getDropped x y) t = .next u ∧ u.responses = t.responses ++ [(s.dropped ++ 0x0#4)]) ∧
          (∀ x y, ∃ u, exec (.getLastError x y) t = .next u ∧
            u.responses = t.responses ++ [(s.lastError.code.zeroExtend 32 ++ 0x0#4)])) ∧
      (s.state = .closed →
        ∃ aw, exec (.close a b) s = .next
          { s with cmdPort := none, awaiting := aw, responses := s.responses ++ [(0#32 ++ 0x2#4)] }))

/-- The pseudo-instruction REOPEN is CLOSE then OPEN (30_encoding.md R83): from either state it ends Open with the new
line configured and the queue, the last error and the drop count reset; only the first answer tells the two apart. -/
def Obligations.ReopenConfiguresAgain : Prop :=
  ∀ (baud : Word) (s : State) (rest : List Move),
    s.send = .idle → s.faulted = false → s.cmdPort = none →
    s.moves = (expandPseudo (.reopen baud)).flatMap instrMoves ++ rest →
      core.run 4 s = .next
        { s with
          moves := rest, awaiting := false
          responses := s.responses ++ [(if s.state = .opened then (0#32 ++ 0x0#4) else (0#32 ++ 0x2#4)), (0#32 ++ 0x0#4)]
          trace := s.trace ++ [.configureLine baud]
          rxQueue := { s.rxQueue with count := 0, writeIndex := 0, readIndex := 0 }
          lastError := .success, dropped := 0, rxIrqEnable := true, state := .opened }

/-! ### Queries and reserved opcodes -/

/-- The four queries (45_query.md R200 to R203) answer the register they read, in either state, and change nothing: the
last error zero-extended, the drop count, the status word (bit 0 the state, bit 1 the interrupt enable, which at a step
boundary are equal, bits 31..2 zero), the count zero-extended. -/
def Obligations.QueriesAnswerTheirRegister : Prop :=
  ∀ (a b : Word) (s : State), s.send = .idle → s.faulted = false →
    encode (.getLastError a b) = .command (b ++ a ++ 0x07#8) ∧
    encode (.getDropped a b) = .command (b ++ a ++ 0x08#8) ∧
    encode (.getStatus a b) = .command (b ++ a ++ 0x09#8) ∧
    encode (.getCount a b) = .command (b ++ a ++ 0x0A#8) ∧
    (∀ e ∈ [(ResultCode.success, 0x0#32), (.framingError, 0x6#32), (.parityError, 0x7#32), (.lineBreakError, 0x8#32),
            (.noiseError, 0x9#32), (.overrunError, 0xA#32)],
      s.lastError = e.1 →
        ∃ aw, exec (.getLastError a b) s = .next
          { s with cmdPort := none, awaiting := aw, responses := s.responses ++ [(e.2 ++ 0x0#4)] }) ∧
    (∃ aw, exec (.getDropped a b) s = .next
      { s with cmdPort := none, awaiting := aw, responses := s.responses ++ [(s.dropped ++ 0x0#4)] }) ∧
    (∃ aw, exec (.getStatus a b) s = .next
      { s with
        cmdPort := none, awaiting := aw
        responses := s.responses ++
          [(BitVec.ofNat 32 ((if s.state = .opened then 1 else 0) + (if s.rxIrqEnable then 2 else 0)) ++ 0x0#4)] }) ∧
    (s.Inv → s.rxIrqEnable = decide (s.state = .opened)) ∧
    ∃ aw, exec (.getCount a b) s = .next
      { s with
        cmdPort := none, awaiting := aw
        responses := s.responses ++ [(BitVec.ofNat 32 s.rxQueue.count ++ 0x0#4)] }

/-- GET_LAST_ERROR answers the code of the last error, zero-extended, whatever kind it is (45_query.md R200), and in every
state that meets the invariant that code is one of the six legal ones (10_state.md R26); the answer changes nothing
else. -/
def Obligations.LastErrorQueryCompletes : Prop :=
  ∀ (a b : Word) (s : State), s.send = .idle → s.faulted = false →
    exec (.getLastError a b) s = .next
      { s with
        cmdPort := none, awaiting := false
        responses := s.responses ++ [(s.lastError.code.zeroExtend 32 ++ 0x0#4)] } ∧
    (s.Inv → s.lastError.code = 0x0 ∨ 0x6 ≤ s.lastError.code.toNat ∧ s.lastError.code.toNat ≤ 0xA)

/-- A reserved opcode is accepted, answers InvalidArgument and changes nothing, in either state and whatever its operands
(45_query.md R204). -/
def Obligations.ReservedOpcodesAnswerInvalidArgument : Prop :=
  ∀ s : State, s.send = .idle → s.faulted = false →
    (∀ a b, ∃ aw, exec (.reserved00 a b) s = .next
      { s with cmdPort := none, awaiting := aw, responses := s.responses ++ [(0#32 ++ 0x1#4)] }) ∧
    (∀ op a b, ∃ aw, exec (.reserved0BFF op a b) s = .next
      { s with cmdPort := none, awaiting := aw, responses := s.responses ++ [(0#32 ++ 0x1#4)] }) ∧
    (∀ w : BitVec 72, w.toNat % 2 ^ 8 = 0x00 ∨ 0x0B ≤ w.toNat % 2 ^ 8 →
      ∃ aw, exec (decode (.command w)) s = .next
        { s with cmdPort := none, awaiting := aw, responses := s.responses ++ [(0#32 ++ 0x1#4)] })

/-! ### READ -/

/-- READ's checks, in this order (43_drain.md R160): Closed answers NotOpen, else maxLength 0 answers Success, else a null
destination answers InvalidArgument, each with value 0 and with no other effect. -/
def Obligations.ReadChecks : Prop :=
  ∀ (dst maxLength : Word) (s : State), s.send = .idle → s.faulted = false →
    (s.state = .closed →
      ∃ aw, exec (.read dst maxLength) s = .next
        { s with cmdPort := none, awaiting := aw, responses := s.responses ++ [(0#32 ++ 0x2#4)] }) ∧
    (s.state = .opened → maxLength = 0 →
      ∃ aw, exec (.read dst maxLength) s = .next
        { s with cmdPort := none, awaiting := aw, responses := s.responses ++ [(0#32 ++ 0x0#4)] }) ∧
    (s.state = .opened → maxLength ≠ 0 → dst = 0 →
      ∃ aw, exec (.read dst maxLength) s = .next
        { s with cmdPort := none, awaiting := aw, responses := s.responses ++ [(0#32 ++ 0x1#4)] })

/-- READ drains (43_drain.md R161, R162): past its checks, with every touched byte admitted, it pops
n = min(count, maxLength) entries, writes the i-th oldest at (dst + i) mod 2^32, answers Success with n, and changes
nothing else; every other byte of host memory is as before. -/
def Obligations.ReadDrains : Prop :=
  ∀ (dst maxLength : Word) (s : State) (n : Nat), s.Inv → s.send = .idle → s.faulted = false →
    s.state = .opened → maxLength ≠ 0 → dst ≠ 0 → n = min s.rxQueue.count maxLength.toNat →
    (∀ i < n, s.admits (dst + BitVec.ofNat 32 i) .write = true) →
      ∃ m : Memory,
        exec (.read dst maxLength) s = .next
          { s with
            cmdPort := none, awaiting := false, responses := s.responses ++ [(BitVec.ofNat 32 n ++ 0x0#4)]
            rxQueue :=
              { s.rxQueue with
                count := s.rxQueue.count - n
                readIndex := (s.rxQueue.readIndex + n) % s.rxQueue.capacity }
            mem := m } ∧
        (∀ i < n, s.rxQueue.storage[(s.rxQueue.readIndex + i) % s.rxQueue.capacity]? =
          some (memByte m (dst + BitVec.ofNat 32 i))) ∧
        (∀ a, (∀ i < n, a ≠ dst + BitVec.ofNat 32 i) → memByte m a = s.hostByte a)

/-- A drain whose byte k is the first whose write HostMem does not admit (43_drain.md R164): bytes 0 to k-1 are popped and
written, byte k is popped and lost, the block is faulted with the receive interrupt off, and there is no response. -/
def Obligations.ReadFaultsMidway : Prop :=
  ∀ (dst maxLength : Word) (s : State) (k : Nat), s.Inv → s.send = .idle → s.faulted = false →
    s.state = .opened → dst ≠ 0 → k < min s.rxQueue.count maxLength.toNat →
    (∀ i < k, s.admits (dst + BitVec.ofNat 32 i) .write = true) →
    s.admits (dst + BitVec.ofNat 32 k) .write = false →
      ∃ m : Memory,
        exec (.read dst maxLength) s = .next
          { s with
            cmdPort := none
            rxQueue :=
              { s.rxQueue with
                count := s.rxQueue.count - (k + 1)
                readIndex := (s.rxQueue.readIndex + (k + 1)) % s.rxQueue.capacity }
            mem := m
            faulted := true, rxIrqEnable := false, faultAddr := some (dst + BitVec.ofNat 32 k) } ∧
        (∀ i < k, s.rxQueue.storage[(s.rxQueue.readIndex + i) % s.rxQueue.capacity]? =
          some (memByte m (dst + BitVec.ofNat 32 i))) ∧
        (∀ a, (∀ i < k, a ≠ dst + BitVec.ofNat 32 i) → memByte m a = s.hostByte a)

/-- A drain and a good byte in either order, the queue not full (43_drain.md R163): the count after the READ is the count
before it less the bytes popped, and no byte is lost, duplicated or reordered. A byte of a line-level error, or into a full
queue, joins no queue: `RxEventEffect` says so. -/
def Obligations.DrainAndReceiveInEitherOrder : Prop :=
  ∀ (dst maxLength : Word) (status : BitVec 10) (d : Byte) (s : State), s.Inv → s.send = .idle → s.faulted = false →
    s.state = .opened → maxLength ≠ 0 → dst ≠ 0 → (classify status).isLineLevel = false →
    s.rxQueue.count < s.rxQueue.capacity →
    (∀ i < min (s.rxQueue.count + 1) maxLength.toNat, s.admits (dst + BitVec.ofNat 32 i) .write = true) →
      (∃ t u, exec (.read dst maxLength) s = .next t ∧ exec (.rxEvent status d) t = .next u ∧
        t.rxQueue.count = s.rxQueue.count - min s.rxQueue.count maxLength.toNat ∧
        u.rxQueue.contents = s.rxQueue.contents.drop (min s.rxQueue.count maxLength.toNat) ++ [d]) ∧
      (∃ t u, exec (.rxEvent status d) s = .next t ∧ exec (.read dst maxLength) t = .next u ∧
        t.rxQueue.count = s.rxQueue.count + 1 ∧
        u.rxQueue.count = t.rxQueue.count - min t.rxQueue.count maxLength.toNat ∧
        u.rxQueue.contents = (s.rxQueue.contents ++ [d]).drop (min (s.rxQueue.count + 1) maxLength.toNat))

/-! ### The sends -/

/-- The sends' checks, in order, at the command step (44_transmit.md R180): Closed answers NotOpen for all three; a null
source answers InvalidArgument for the two that have one; a zero length answers InvalidArgument for SEND_ARRAY. No other
effect. -/
def Obligations.SendChecks : Prop :=
  ∀ s : State, s.send = .idle → s.faulted = false →
    (∀ i : Instr,
      s.state = .closed →
      (∃ v hi b, i = .sendByte v hi b) ∨ (∃ src b, i = .sendString src b) ∨ (∃ src n, i = .sendArray src n) →
        ∃ aw, exec i s = .next
          { s with cmdPort := none, awaiting := aw, responses := s.responses ++ [(0#32 ++ 0x2#4)] }) ∧
    (∀ i : Instr,
      s.state = .opened →
      (∃ b, i = .sendString 0 b) ∨ (∃ n, i = .sendArray 0 n) ∨ (∃ src, src ≠ 0 ∧ i = .sendArray src 0) →
        ∃ aw, exec i s = .next
          { s with cmdPort := none, awaiting := aw, responses := s.responses ++ [(0#32 ++ 0x1#4)] })

/-- A send whose checks pass is accepted and becomes busy, with no response yet, no output and nothing else changed
(44_transmit.md R181, R182, R183): SEND_BYTE with its byte zero-extended and a remaining of 1, SEND_STRING with its
address, SEND_ARRAY with its address and length. -/
def Obligations.SendsBecomeBusy : Prop :=
  ∀ s : State, s.send = .idle → s.faulted = false → s.state = .opened →
    (∀ v hi b, exec (.sendByte v hi b) s = .next
      { s with cmdPort := none, send := .busy .byte (0#24 ++ v) 1 }) ∧
    (∀ src b, src ≠ 0 → exec (.sendString src b) s = .next
      { s with cmdPort := none, send := .busy .string src 0 }) ∧
    (∀ src n, src ≠ 0 → n ≠ 0 → exec (.sendArray src n) s = .next
      { s with cmdPort := none, send := .busy .array src n })

/-- The transmit step of SEND_BYTE (44_transmit.md R181): with `tx_ready` one WriteData of the byte, Idle, and the
response; without it the step is held. -/
def Obligations.TransmitByteStep : Prop :=
  ∀ (s : State) (rest : List Move) (addr r : Word),
    s.moves = .transmit :: rest → s.faulted = false → s.send = .busy .byte addr r →
    (s.txReady = true → step s = .next
      { s with
        moves := rest, send := .idle, awaiting := s.cmdPort.isSome
        trace := s.trace ++ [.writeData (BitVec.ofNat 8 addr.toNat)]
        responses := s.responses ++ [(0#32 ++ 0x0#4)] }) ∧
    (s.txReady = false → step s = .next { s with moves := rest })

/-- A transmit step of SEND_STRING (44_transmit.md R182, R185, R186): the byte is read first; unadmitted it raises
HostBusFault and 0x00 ends the send, both whatever `tx_ready` is; another byte waits for `tx_ready`, then is sent and the
address advances by one modulo 2^32. -/
def Obligations.TransmitStringStep : Prop :=
  ∀ (s : State) (rest : List Move) (addr r : Word),
    s.moves = .transmit :: rest → s.faulted = false → s.send = .busy .string addr r →
    (s.admits addr .read = false → step s = .next
      { s with moves := rest, faulted := true, rxIrqEnable := false, faultAddr := some addr }) ∧
    (s.admits addr .read = true → s.hostByte addr = 0 → step s = .next
      { s with moves := rest, send := .idle, awaiting := s.cmdPort.isSome, responses := s.responses ++ [(0#32 ++ 0x0#4)] }) ∧
    (s.admits addr .read = true → s.hostByte addr ≠ 0 →
      (s.txReady = true → step s = .next
        { s with
          moves := rest, trace := s.trace ++ [.writeData (s.hostByte addr)], send := .busy .string (addr + 1) r }) ∧
      (s.txReady = false → step s = .next { s with moves := rest }))

/-- A transmit step of SEND_ARRAY (44_transmit.md R183, R185, R186): the byte is read first, unadmitted it raises
HostBusFault whatever `tx_ready` is; then it waits for `tx_ready`, is sent, and the cursor advances; the step of the last
byte ends the send with its response (log 11). -/
def Obligations.TransmitArrayStep : Prop :=
  ∀ (s : State) (rest : List Move) (addr r : Word),
    s.moves = .transmit :: rest → s.faulted = false → s.send = .busy .array addr r → r ≠ 0 →
    (s.admits addr .read = false → step s = .next
      { s with moves := rest, faulted := true, rxIrqEnable := false, faultAddr := some addr }) ∧
    (s.admits addr .read = true →
      (s.txReady = false → step s = .next { s with moves := rest }) ∧
      (s.txReady = true → r ≠ 1 → step s = .next
        { s with
          moves := rest, trace := s.trace ++ [.writeData (s.hostByte addr)]
          send := .busy .array (addr + 1) (r - 1) }) ∧
      (s.txReady = true → r = 1 → step s = .next
        { s with
          moves := rest, trace := s.trace ++ [.writeData (s.hostByte addr)], send := .idle, awaiting := s.cmdPort.isSome
          responses := s.responses ++ [(0#32 ++ 0x0#4)] }))

/-- SEND_ARRAY from its command to its response (44_transmit.md R183): with `tx_ready` 1 and every byte admitted, the
command step and `length` transmit steps emit exactly `length` WriteData events, the bytes in address order (addresses
modulo 2^32), then answer Success; nothing else changes. That the answer falls in the last byte's step, so that `length`
transmit steps are enough, is the model's choice (log 11). -/
def Obligations.SendArrayCompletes : Prop :=
  ∀ (s : State) (src b : Word) (n : Nat) (rest : List Move),
    s.send = .idle → s.faulted = false → s.state = .opened → s.txReady = true → src ≠ 0 →
    1 ≤ n → b = BitVec.ofNat 32 n → n < 2 ^ 32 →
    s.cmdPort = some (b ++ src ++ 0x06#8) →
    s.moves = .acceptCommand :: (List.replicate n .transmit ++ rest) →
    (∀ i < n, s.admits (src + BitVec.ofNat 32 i) .read = true) →
      core.run (n + 1) s = .next
        { s with
          cmdPort := none, moves := rest, awaiting := false
          trace := s.trace ++ (List.range n).map fun i => .writeData (s.hostByte (src + BitVec.ofNat 32 i))
          responses := s.responses ++ [(0#32 ++ 0x0#4)] }

/-- SEND_STRING from its command to its response (44_transmit.md R182): the string is the n bytes before the first 0x00;
with every byte up to the terminator admitted, and `tx_ready` 1 unless the string is empty, the command step and n + 1
transmit steps emit exactly those bytes in address order, not the terminator, then answer Success. -/
def Obligations.SendStringCompletes : Prop :=
  ∀ (s : State) (src b : Word) (n : Nat) (rest : List Move),
    s.send = .idle → s.faulted = false → s.state = .opened → (n ≠ 0 → s.txReady = true) → src ≠ 0 →
    s.cmdPort = some (b ++ src ++ 0x05#8) →
    s.moves = .acceptCommand :: (List.replicate (n + 1) .transmit ++ rest) →
    (∀ i ≤ n, s.admits (src + BitVec.ofNat 32 i) .read = true) →
    (∀ i < n, s.hostByte (src + BitVec.ofNat 32 i) ≠ 0) → s.hostByte (src + BitVec.ofNat 32 n) = 0 →
      core.run (n + 2) s = .next
        { s with
          cmdPort := none, moves := rest, awaiting := false
          trace := s.trace ++ (List.range n).map fun i => .writeData (s.hostByte (src + BitVec.ofNat 32 i))
          responses := s.responses ++ [(0#32 ++ 0x0#4)] }

/-! ### Receive events -/

/-- The classification, first match of framing, parity, line-break, noise, overrun (42_receive.md R143), bits as in
30_encoding.md R76: FE 1, PE 0, LBD 8, NE 2, ORE 3. -/
def Obligations.ClassificationPrecedence : Prop :=
  ∀ s : BitVec 10,
    (s.getLsbD 1 = true → classify s = .framingError) ∧
    (s.getLsbD 1 = false → s.getLsbD 0 = true → classify s = .parityError) ∧
    (s.getLsbD 1 = false → s.getLsbD 0 = false → s.getLsbD 8 = true → classify s = .lineBreakError) ∧
    (s.getLsbD 1 = false → s.getLsbD 0 = false → s.getLsbD 8 = false → s.getLsbD 2 = true →
      classify s = .noiseError) ∧
    (s.getLsbD 1 = false → s.getLsbD 0 = false → s.getLsbD 8 = false → s.getLsbD 2 = false → s.getLsbD 3 = true →
      classify s = .overrunError) ∧
    (s.getLsbD 1 = false → s.getLsbD 0 = false → s.getLsbD 8 = false → s.getLsbD 2 = false → s.getLsbD 3 = false →
      classify s = .success)

/-- RX_EVENT, when enabled (42_receive.md R142): the classification overwrites the last error; the byte of a line-level
error is discarded; another byte is pushed, or, when the queue is full, dropped and counted with saturation. Nothing else
changes but that the offer is taken. -/
def Obligations.RxEventEffect : Prop :=
  ∀ (status : BitVec 10) (d : Byte) (s : State), s.rxIrqEnable = true → s.faulted = false →
    encode (.rxEvent status d) = .event (status ++ d) ∧
    (classify status = .framingError ∨ classify status = .parityError ∨ classify status = .lineBreakError ∨
        classify status = .noiseError →
      exec (.rxEvent status d) s = .next { s with rxPort := none, lastError := classify status }) ∧
    (classify status = .success ∨ classify status = .overrunError →
      (s.rxQueue.count ≠ s.rxQueue.capacity →
        exec (.rxEvent status d) s = .next
          { s with
            rxPort := none, lastError := classify status
            rxQueue :=
              { s.rxQueue with
                storage := s.rxQueue.storage.set s.rxQueue.writeIndex d
                count := s.rxQueue.count + 1
                writeIndex := (s.rxQueue.writeIndex + 1) % s.rxQueue.capacity } }) ∧
      (s.rxQueue.count = s.rxQueue.capacity →
        exec (.rxEvent status d) s = .next
          { s with
            rxPort := none, lastError := classify status
            dropped := if s.dropped = 0xFFFFFFFF then 0xFFFFFFFF else s.dropped + 1 }))

/-- An enabled receive event always completes: its classification is one of the six of the effect statement, and it
touches only the queue, the last error and the drop count, besides taking the offer (42_receive.md R147). -/
def Obligations.RxEventTouchesOnly : Prop :=
  ∀ (status : BitVec 10) (d : Byte) (s : State), s.rxIrqEnable = true → s.faulted = false →
    ∃ t, exec (.rxEvent status d) s = .next t ∧
      t = { s with rxPort := none, rxQueue := t.rxQueue, lastError := t.lastError, dropped := t.dropped }

/-- A receive event is not enabled while the receive interrupt is disabled or the block is faulted (42_receive.md R140):
nothing happens and the offer stays with the device. -/
def Obligations.RxEventNotEnabled : Prop :=
  ∀ (status : BitVec 10) (d : Byte) (s : State), s.rxIrqEnable = false ∨ s.faulted = true →
    exec (.rxEvent status d) s = .next s

/-- Status bits 4, 5, 6, 7 and 9 are ignored: any value of them gives the same step; and no response of any step carries a
result code 0xB to 0xF (30_encoding.md R81). -/
def Obligations.IgnoredStatusBits : Prop :=
  (∀ (st st' : BitVec 10) (d : Byte) (s : State),
    (∀ i, i ≠ 4 → i ≠ 5 → i ≠ 6 → i ≠ 7 → i ≠ 9 → st.getLsbD i = st'.getLsbD i) →
      exec (.rxEvent st d) s = exec (.rxEvent st' d) s) ∧
  (∀ (s t : State) (r : BitVec 36), step s = .next t → t.responses = s.responses ++ [r] → r.toNat % 16 ≤ 0xA)

/-! ### The FIFO engine -/

/-- One request at the engine's port, for every width and capacity (40_fifo_engine.md R101, R102, R103): an idle request
leaves the engine as it is (whether it has a reply is left open: log 10); FIFO_INIT zeroes count and indices and keeps the
storage; a push into a full engine fails without effect, another stores and advances; a
pop of an empty engine fails without effect, with any value, another answers the oldest entry and advances. -/
def Obligations.FifoOperations : Prop :=
  ∀ (w : Nat) (q : Fifo w) (x draw : BitVec w),
    (∃ r, q.serve { fop := 0#2, fwdata := x } draw = (q, r)) ∧
    (∃ d, q.serve { fop := 3#2, fwdata := x } draw =
      ({ q with count := 0, writeIndex := 0, readIndex := 0 }, some { fok := true, frdata := d })) ∧
    (q.count = q.capacity → ∃ d, q.serve { fop := 1#2, fwdata := x } draw = (q, some { fok := false, frdata := d })) ∧
    (q.count ≠ q.capacity → ∃ d, q.serve { fop := 1#2, fwdata := x } draw =
      ({ q with
          storage := q.storage.set q.writeIndex x, count := q.count + 1
          writeIndex := (q.writeIndex + 1) % q.capacity }, some { fok := true, frdata := d })) ∧
    (q.count = 0 → ∃ d, q.serve { fop := 2#2, fwdata := x } draw = (q, some { fok := false, frdata := d })) ∧
    (∀ v, q.count ≠ 0 → q.storage[q.readIndex]? = some v → q.serve { fop := 2#2, fwdata := x } draw =
      ({ q with count := q.count - 1, readIndex := (q.readIndex + 1) % q.capacity },
        some { fok := true, frdata := v }))

/-- The four FIFO rows, served on the FIFO engine instance of its own (30_encoding.md R78; that there is one beside the
block, and that its idle request has no reply, is the model's choice, log 10, as is the count of draws, log 8): each
completes in every state, with the reply the operation gives and nothing else changed, the receive queue and the rest of
the block among it; FIFO_IDLE changes nothing but that its request is taken. -/
def Obligations.FifoRowsComplete : Prop :=
  ∀ (x : Byte) (s : State),
    exec (.fifoIdle x) s = .next { s with fifoPort := none } ∧
    (∃ d, exec (.fifoInit x) s = .next
      { s with
        fifoPort := none, draws := s.draws + 1, fifoReply := some { fok := true, frdata := d }
        fifoEngine := { s.fifoEngine with count := 0, writeIndex := 0, readIndex := 0 } }) ∧
    (s.fifoEngine.count = s.fifoEngine.capacity → ∃ d, exec (.fifoTryPush x) s = .next
      { s with fifoPort := none, draws := s.draws + 1, fifoReply := some { fok := false, frdata := d } }) ∧
    (s.fifoEngine.count ≠ s.fifoEngine.capacity → ∃ d, exec (.fifoTryPush x) s = .next
      { s with
        fifoPort := none, draws := s.draws + 1, fifoReply := some { fok := true, frdata := d }
        fifoEngine :=
          { s.fifoEngine with
            storage := s.fifoEngine.storage.set s.fifoEngine.writeIndex x
            count := s.fifoEngine.count + 1
            writeIndex := (s.fifoEngine.writeIndex + 1) % s.fifoEngine.capacity } }) ∧
    (s.fifoEngine.count = 0 → ∃ d, exec (.fifoTryPop x) s = .next
      { s with fifoPort := none, draws := s.draws + 1, fifoReply := some { fok := false, frdata := d } }) ∧
    (s.fifoEngine.count ≠ 0 → ∃ d, exec (.fifoTryPop x) s = .next
      { s with
        fifoPort := none, draws := s.draws + 1, fifoReply := some { fok := true, frdata := d }
        fifoEngine :=
          { s.fifoEngine with
            count := s.fifoEngine.count - 1
            readIndex := (s.fifoEngine.readIndex + 1) % s.fifoEngine.capacity } } ∧
      (s.Inv → s.fifoEngine.storage[s.fifoEngine.readIndex]? = some d))

/-- The law of the engine over any requests since FIFO_INIT (40_fifo_engine.md R104), for every width and capacity: what
was popped, followed by what is queued, is what was successfully pushed, in order; count is pushes less pops and never
exceeds the capacity; each index is its operation's number of successes modulo the capacity. -/
def Obligations.FifoDeliversInOrder : Prop :=
  ∀ (w : Nat) (draw : Nat → BitVec w) (q : Fifo w) (rs : List (FifoRequest w)),
    1 ≤ q.capacity → q.capacity ≤ 2 ^ 32 - 1 → q.storage.length = q.capacity → (∀ r ∈ rs, r.fop ≠ 3#2) →
      let p := Fifo.run draw rs q.init
      let pushed := pushedValues rs p.2
      let popped := poppedValues rs p.2
      popped ++ p.1.contents = pushed ∧
      p.1.count + popped.length = pushed.length ∧
      p.1.count ≤ q.capacity ∧ p.1.capacity = q.capacity ∧
      p.1.writeIndex = pushed.length % q.capacity ∧
      p.1.readIndex = popped.length % q.capacity

/-- N pushes into an empty engine, N at most the capacity, then N pops: every request succeeds and the pops answer exactly
the pushed values in order (40_fifo_engine.md R104, 90_conflicts.md C9), wherever the indices stand. -/
def Obligations.FifoPushesThenPops : Prop :=
  ∀ (w : Nat) (draw : Nat → BitVec w) (q : Fifo w) (vs : List (BitVec w)) (x : BitVec w),
    q.Inv → q.count = 0 → vs.length ≤ q.capacity →
      let rs := vs.map (fun v => { fop := 1#2, fwdata := v }) ++ List.replicate vs.length { fop := 2#2, fwdata := x }
      let p := Fifo.run draw rs q
      poppedValues rs p.2 = vs ∧ p.1.count = 0 ∧
      ∀ reply ∈ p.2, ∃ d, reply = some { fok := true, frdata := d }

/-- The widths of the engine's fields are the least that hold their legal values (00_scope.md R6, 10_state.md R21). -/
def Obligations.FieldWidthsAreLeast : Prop :=
  ∀ c : Nat, 1 ≤ c →
    (∀ i < c, i < 2 ^ idxWidth c) ∧
    (∀ k, 1 ≤ k → (∀ i < c, i < 2 ^ k) → idxWidth c ≤ k) ∧
    (∀ i ≤ c, i < 2 ^ cntWidth c) ∧
    (∀ k, (∀ i ≤ c, i < 2 ^ k) → cntWidth c ≤ k)

/-- The saturating increment, at every width (00_scope.md R9): one more, but never past the largest value. -/
def Obligations.SaturatingIncrement : Prop :=
  ∀ (n : Nat) (v : BitVec n), (satInc v).toNat = min (v.toNat + 1) (2 ^ n - 1)

/-! ### Host memory -/

/-- MemWrite and MemRead (20_memory.md R53, R55): an admitted write changes that byte alone and keeps the canonical form;
a read answers the byte held; an access HostMem does not admit answers nothing and has no effect. -/
def Obligations.MemoryReadAfterWrite : Prop :=
  ∀ (s : State) (a b : Word) (v : Byte),
    (s.admits a .write = true →
      ∃ m, s.memWrite a v = some { s with mem := m } ∧
        (memByte m b = if b = a then v else s.hostByte b) ∧ (s.mem.wf = true → m.wf = true)) ∧
    (s.admits a .write = false → s.memWrite a v = none) ∧
    (s.admits a .read = true → s.memRead a = some (s.hostByte a)) ∧
    (s.admits a .read = false → s.memRead a = none)

/-- Buffer addresses wrap modulo 2^32, and two bytes of one buffer of at most 2^32 bytes never share an address
(20_memory.md R54). -/
def Obligations.BufferAddressesWrap : Prop :=
  ∀ (base : Word) (i j : Nat),
    (bufferAddr base i).toNat = (base.toNat + i) % 2 ^ 32 ∧
    (i < 2 ^ 32 → j < 2 ^ 32 → bufferAddr base i = bufferAddr base j → i = j)

/-- Which steps write host memory (20_memory.md R52, R55): a READ on an Open block, or the host outside a command, which the
model reads as an empty command port and no send running (log 12); in particular no step writes it while a send runs
(44_transmit.md R186). -/
def Obligations.HostMemoryWriters : Prop :=
  (∀ s t : State, step s = .next t → t.mem ≠ s.mem →
    (∃ w dst n, s.moves.head? = some .acceptCommand ∧ s.cmdPort = some w ∧ decode (.command w) = .read dst n ∧
      s.state = .opened ∧ s.send = .idle ∧ s.faulted = false) ∨
    (∃ a v, s.moves.head? = some (.hostWrite a v) ∧ s.cmdPort = none ∧ (s.send = .idle ∨ s.faulted = true))) ∧
  (∀ s t : State, step s = .next t → s.send ≠ .idle → s.faulted = false → t.mem = s.mem)

/-! ### The HostBusFault stop and reset -/

/-- While the fault bit is 1 no step of the block happens (10_state.md R30): whatever the next move is, unless it is
reset, the fault bit stays and no state of the block, no response and no output event changes. The FIFO engine instance of
its own, which is no part of the block (log 10), changes only by its own step. -/
def Obligations.FaultedBlockTakesNoStep : Prop :=
  ∀ s t : State, s.faulted = true → s.moves.head? ≠ some .powerReset → step s = .next t →
    t.faulted = true ∧ t.state = s.state ∧ t.rxQueue = s.rxQueue ∧ t.lastError = s.lastError ∧
    t.rxIrqEnable = s.rxIrqEnable ∧ t.dropped = s.dropped ∧ t.send = s.send ∧ t.faultAddr = s.faultAddr ∧
    t.responses = s.responses ∧ t.trace = s.trace ∧
    (s.moves.head? ≠ some .serveFifo → t.fifoEngine = s.fifoEngine ∧ t.fifoReply = s.fifoReply) ∧
    (s.cmdPort ≠ none → t.cmdPort = s.cmdPort)

/-- The fault bit is set only by an access that HostMem does not admit, and the record (log 1) names that access's address
(60_exceptions.md R226): the read of a transmit step of a busy SEND_STRING or SEND_ARRAY, at its cursor, or the first
unadmitted write of an accepted READ's drain. Then the receive interrupt is off, there is no response and no output event,
and the send and the state stay as they are. -/
def Obligations.FaultOnlyFromUnadmittedAccess : Prop :=
  ∀ s t : State, s.faulted = false → step s = .next t → t.faulted = true →
    ((∃ k addr r, s.moves.head? = some .transmit ∧ s.send = .busy k addr r ∧ (k = .string ∨ k = .array) ∧
        s.admits addr .read = false ∧ t.faultAddr = some addr) ∨
     (∃ w dst n i, s.moves.head? = some .acceptCommand ∧ s.cmdPort = some w ∧ decode (.command w) = .read dst n ∧
        s.send = .idle ∧ s.state = .opened ∧ i < min s.rxQueue.count n.toNat ∧
        (∀ j < i, s.admits (dst + BitVec.ofNat 32 j) .write = true) ∧
        s.admits (dst + BitVec.ofNat 32 i) .write = false ∧ t.faultAddr = some (dst + BitVec.ofNat 32 i))) ∧
    t.rxIrqEnable = false ∧ t.responses = s.responses ∧ t.trace = s.trace ∧ t.send = s.send ∧ t.state = s.state

/-- Power-up reset as a step (70_reset_and_hazards.md R260), at any boundary and from any state, a busy send or a faulted
block among them: Closed, the interrupt off, the queue's count and indices 0 with its storage unchanged, the last error,
the drop count, the send engine and the fault bit at their reset values; no response and no output event. What the rule
does not name is the model's choice: the fault's record is cleared (log 1), the ports and `tx_ready` stay (log 3), so do
the FIFO engine instance of its own (log 10), the host's wait (log 14), the trace and the responses (log 15). -/
def Obligations.PowerResetEffect : Prop :=
  ∀ (s : State) (rest : List Move), s.moves = .powerReset :: rest →
    step s = .next
      { s with
        moves := rest
        state := .closed, rxIrqEnable := false
        rxQueue := { s.rxQueue with count := 0, writeIndex := 0, readIndex := 0 }
        lastError := .success, dropped := 0, send := .idle, faulted := false, faultAddr := none }

/-- A block with a legal capacity is elaborated with the reset values of 10_state.md R32, for every host-memory map, and
beside it a FIFO engine instance of its own, empty (log 10); a capacity of 0 or over 2^32 - 1, of either, is refused
(00_scope.md R6, R7). -/
def Obligations.ElaborationAndResetValues : Prop :=
  ∀ (capacity fifoCapacity : Nat) (hostMem : List Region),
    (1 ≤ capacity ∧ capacity ≤ 2 ^ 32 - 1 → 1 ≤ fifoCapacity ∧ fifoCapacity ≤ 2 ^ 32 - 1 →
      ∃ s, elaborate capacity fifoCapacity hostMem = .next s ∧
        s.state = .closed ∧ s.rxIrqEnable = false ∧ s.lastError = .success ∧ s.dropped = 0 ∧ s.send = .idle ∧
        s.faulted = false ∧ s.rxQueue.count = 0 ∧ s.rxQueue.writeIndex = 0 ∧ s.rxQueue.readIndex = 0 ∧
        s.rxQueue.capacity = capacity ∧ s.rxQueue.storage.length = capacity ∧ s.hostMem = hostMem ∧
        s.fifoEngine.count = 0 ∧ s.fifoEngine.writeIndex = 0 ∧ s.fifoEngine.readIndex = 0 ∧
        s.fifoEngine.capacity = fifoCapacity ∧ s.fifoEngine.storage.length = fifoCapacity) ∧
    (capacity = 0 ∨ 2 ^ 32 - 1 < capacity ∨ fifoCapacity = 0 ∨ 2 ^ 32 - 1 < fifoCapacity →
      ∃ r, elaborate capacity fifoCapacity hostMem = .refused r)

/-! ### The invariant -/

/-- The invariant holds right after power-up, for all legal capacities and every host-memory map; in particular at
`State.reset` (whose capacities and map are the model's choices, log 4, log 5, log 10). -/
def Obligations.InvariantAtPowerUp : Prop :=
  (∀ (capacity fifoCapacity : Nat) (hostMem : List Region), 1 ≤ capacity → capacity ≤ 2 ^ 32 - 1 →
    1 ≤ fifoCapacity → fifoCapacity ≤ 2 ^ 32 - 1 → (State.powerUp capacity fifoCapacity hostMem).Inv) ∧
  State.reset.Inv

/-- Every step keeps the invariant: the queue's bounds and index relation (10_state.md R22), those of the FIFO engine
instance of its own (log 10), the legal last errors (R26), the interrupt enable equal to "Open and not faulted" (R27), the
legal send engines (R29), host memory's canonical form, and the model's own records. -/
def Obligations.StepKeepsInvariant : Prop :=
  ∀ s t : State, s.Inv → step s = .next t → t.Inv

/-! ### Whole-machine rules -/

/-- `st.state` is written only by OPEN (Closed to Open), CLOSE (Open to Closed) and reset (to Closed) (10_state.md R24). -/
def Obligations.LifecycleWriters : Prop :=
  ∀ s t : State, step s = .next t → t.state ≠ s.state →
    (s.moves.head? = some .powerReset ∧ t.state = .closed) ∨
    (∃ w, s.moves.head? = some .acceptCommand ∧ s.cmdPort = some w ∧
      ((∃ baud b, decode (.command w) = .openLine baud b ∧ s.state = .closed ∧ t.state = .opened) ∨
       (∃ a b, decode (.command w) = .close a b ∧ s.state = .opened ∧ t.state = .closed)))

/-- The last error is written only by receive events, OPEN and reset, the latter two to Success (10_state.md R26); the
drop count only by a receive event on a full queue, by one, and by OPEN and reset, to 0 (R28). -/
def Obligations.LastErrorAndDroppedWriters : Prop :=
  ∀ s t : State, step s = .next t →
    (t.lastError ≠ s.lastError →
      (s.moves.head? = some .powerReset ∧ t.lastError = .success) ∨
      (∃ w baud b, s.moves.head? = some .acceptCommand ∧ s.cmdPort = some w ∧
        decode (.command w) = .openLine baud b ∧ t.lastError = .success) ∨
      (∃ w status d, s.moves.head? = some .takeEvent ∧ s.rxPort = some w ∧
        decode (.event w) = .rxEvent status d ∧ s.rxIrqEnable = true ∧ t.lastError = classify status)) ∧
    (t.dropped ≠ s.dropped →
      (s.moves.head? = some .powerReset ∧ t.dropped = 0) ∨
      (∃ w baud b, s.moves.head? = some .acceptCommand ∧ s.cmdPort = some w ∧
        decode (.command w) = .openLine baud b ∧ t.dropped = 0) ∨
      (s.moves.head? = some .takeEvent ∧ s.rxIrqEnable = true ∧ s.rxQueue.count = s.rxQueue.capacity ∧
        t.dropped.toNat = s.dropped.toNat + 1))

/-- What can happen to the queued bytes in a step (10_state.md R25, 20_memory.md R59): nothing; one good byte joins them
at the end, by a receive event into a queue that is not full; a READ takes the k oldest away, having written them in order
at its destination and answered k unless the block faulted; or OPEN or reset empties the queue. -/
def Obligations.QueuedBytesEvolve : Prop :=
  ∀ s t : State, s.Inv → step s = .next t →
    t.rxQueue.contents = s.rxQueue.contents ∨
    (∃ w status d, s.moves.head? = some .takeEvent ∧ s.rxPort = some w ∧ decode (.event w) = .rxEvent status d ∧
      s.rxIrqEnable = true ∧ (classify status).isLineLevel = false ∧ s.rxQueue.count ≠ s.rxQueue.capacity ∧
      t.rxQueue.contents = s.rxQueue.contents ++ [d]) ∨
    (∃ w dst n k, s.moves.head? = some .acceptCommand ∧ s.cmdPort = some w ∧ decode (.command w) = .read dst n ∧
      k ≤ s.rxQueue.count ∧ k ≤ n.toNat ∧ t.rxQueue.contents = s.rxQueue.contents.drop k ∧
      (t.faulted = false →
        t.responses = s.responses ++ [(BitVec.ofNat 32 k ++ 0x0#4)] ∧
        ∀ i < k, s.rxQueue.contents[i]? = some (t.hostByte (dst + BitVec.ofNat 32 i)))) ∨
    (∃ w baud b, s.moves.head? = some .acceptCommand ∧ s.cmdPort = some w ∧
      decode (.command w) = .openLine baud b ∧ t.rxQueue.contents = []) ∨
    (s.moves.head? = some .powerReset ∧ t.rxQueue.contents = [])

/-- The writers of the receive queue's fields (10_state.md R25, R32): RX_EVENT pushes (count, writeIndex, one storage
entry), READ pops (count, readIndex), OPEN and reset initialise it (count and indices), and no other step changes it. -/
def Obligations.ReceiveQueueWriters : Prop :=
  ∀ s t : State, step s = .next t → t.rxQueue ≠ s.rxQueue →
    (∃ w status d, s.moves.head? = some .takeEvent ∧ s.rxPort = some w ∧ decode (.event w) = .rxEvent status d ∧
      s.rxIrqEnable = true ∧ s.faulted = false ∧ (classify status).isLineLevel = false ∧
      s.rxQueue.count ≠ s.rxQueue.capacity ∧
      t.rxQueue =
        { s.rxQueue with
          storage := s.rxQueue.storage.set s.rxQueue.writeIndex d
          count := s.rxQueue.count + 1
          writeIndex := (s.rxQueue.writeIndex + 1) % s.rxQueue.capacity }) ∨
    (∃ w dst n, s.moves.head? = some .acceptCommand ∧ s.cmdPort = some w ∧ decode (.command w) = .read dst n ∧
      s.state = .opened ∧ s.send = .idle ∧ s.faulted = false ∧
      t.rxQueue = { s.rxQueue with count := t.rxQueue.count, readIndex := t.rxQueue.readIndex }) ∨
    (∃ w baud b, s.moves.head? = some .acceptCommand ∧ s.cmdPort = some w ∧
      decode (.command w) = .openLine baud b ∧ s.state = .closed ∧ s.send = .idle ∧ s.faulted = false ∧
      t.rxQueue = { s.rxQueue with count := 0, writeIndex := 0, readIndex := 0 }) ∨
    (s.moves.head? = some .powerReset ∧
      t.rxQueue = { s.rxQueue with count := 0, writeIndex := 0, readIndex := 0 })

/-- The FIFO engine instance of its own shares nothing with the block (00_scope.md R8; the instance is the model's, log 10):
no step of the block or of its agents changes it, and its own steps change nothing but it, its port, its reply and the
model's count of draws. -/
def Obligations.FifoInstanceStandsApart : Prop :=
  ∀ s t : State, step s = .next t →
    (s.moves.head? ≠ some .serveFifo → t.fifoEngine = s.fifoEngine ∧ t.fifoReply = s.fifoReply ∧ t.draws = s.draws) ∧
    (s.moves.head? = some .serveFifo ∨ (∃ w, s.moves.head? = some (.requestFifo w)) →
      t = { s with
        moves := s.moves.tail, fifoPort := t.fifoPort, fifoEngine := t.fifoEngine, fifoReply := t.fifoReply
        draws := t.draws })

/-- The parameters never change: the capacities are "fixed at construction", the host-memory map fixed for a run
(10_state.md R21, 20_memory.md R52). -/
def Obligations.ParametersNeverChange : Prop :=
  ∀ s t : State, step s = .next t →
    t.rxQueue.capacity = s.rxQueue.capacity ∧ t.hostMem = s.hostMem ∧ t.fifoEngine.capacity = s.fifoEngine.capacity

/-- The outputs only grow, by at most one event and one response in a step (30_encoding.md R72, R77): ConfigureLine only
as the block goes from Closed to Open, WriteData only by a transmit step of a busy send with `tx_ready` 1; a response
only by accepting a command or ending a send. An accepted command is answered in its step, or its send is busy, or the
block has faulted. -/
def Obligations.OutputsGrowByRule : Prop :=
  ∀ s t : State, step s = .next t →
    (t.trace = s.trace ∨
      (∃ baud, t.trace = s.trace ++ [.configureLine baud] ∧ s.moves.head? = some .acceptCommand ∧
        s.state = .closed ∧ t.state = .opened) ∨
      (∃ c, t.trace = s.trace ++ [.writeData c] ∧ s.moves.head? = some .transmit ∧ s.send ≠ .idle ∧
        s.txReady = true)) ∧
    (t.responses = s.responses ∨
      (∃ r, t.responses = s.responses ++ [r] ∧ t.awaiting = t.cmdPort.isSome ∧
        ((s.moves.head? = some .acceptCommand ∧ s.cmdPort ≠ none ∧ t.cmdPort = none ∧ t.send = .idle) ∨
         (s.moves.head? = some .transmit ∧ s.send ≠ .idle ∧ t.send = .idle)))) ∧
    (s.cmdPort ≠ none → t.cmdPort = none →
      (∃ r, t.responses = s.responses ++ [r]) ∨ t.send ≠ .idle ∨ t.faulted = true)

/-- A response carries one of the four codes Success, InvalidArgument, NotOpen and AlreadyOpen, and an error's value is 0
(30_encoding.md R75, 60_exceptions.md R220). -/
def Obligations.ResponsesCarryFourCodes : Prop :=
  ∀ (s t : State) (r : BitVec 36), step s = .next t → t.responses = s.responses ++ [r] →
    r.toNat % 16 ≤ 0x3 ∧ (r.toNat % 16 ≠ 0 → r.toNat / 16 = 0)

/-- A storage entry that holds no queued element is never observable (10_state.md R33): two states that differ only in
such entries, of the receive queue and of the FIFO engine instance of its own (log 10), have steps with the same outcome,
again up to such entries; nothing any port shows can tell them apart. -/
def Obligations.UnqueuedStorageIsUnobservable : Prop :=
  ∀ s t : State, s.Inv → t.Inv → s.SameVisible t → OutcomesRelated State.SameVisible (step s) (step t)
end

