-- ==== Sys2Proof/Laws/State.lean ====
section
/-!
SUPPORT. One lemma per field and named update of State, so that no proof unfolds a record update.
-/

namespace Sys2Proof.Machine

/-! ### takeCommand -/

@[simp] theorem State.takeCommand_state (s : State) : (s.takeCommand).state = s.state := rfl
@[simp] theorem State.takeCommand_rxQueue (s : State) : (s.takeCommand).rxQueue = s.rxQueue := rfl
@[simp] theorem State.takeCommand_lastError (s : State) : (s.takeCommand).lastError = s.lastError := rfl
@[simp] theorem State.takeCommand_rxIrqEnable (s : State) : (s.takeCommand).rxIrqEnable = s.rxIrqEnable := rfl
@[simp] theorem State.takeCommand_dropped (s : State) : (s.takeCommand).dropped = s.dropped := rfl
@[simp] theorem State.takeCommand_send (s : State) : (s.takeCommand).send = s.send := rfl
@[simp] theorem State.takeCommand_faulted (s : State) : (s.takeCommand).faulted = s.faulted := rfl
@[simp] theorem State.takeCommand_mem (s : State) : (s.takeCommand).mem = s.mem := rfl
@[simp] theorem State.takeCommand_hostMem (s : State) : (s.takeCommand).hostMem = s.hostMem := rfl
@[simp] theorem State.takeCommand_cmdPort (s : State) : (s.takeCommand).cmdPort = none := rfl
@[simp] theorem State.takeCommand_rxPort (s : State) : (s.takeCommand).rxPort = s.rxPort := rfl
@[simp] theorem State.takeCommand_fifoEngine (s : State) : (s.takeCommand).fifoEngine = s.fifoEngine := rfl
@[simp] theorem State.takeCommand_fifoPort (s : State) : (s.takeCommand).fifoPort = s.fifoPort := rfl
@[simp] theorem State.takeCommand_fifoReply (s : State) : (s.takeCommand).fifoReply = s.fifoReply := rfl
@[simp] theorem State.takeCommand_txReady (s : State) : (s.takeCommand).txReady = s.txReady := rfl
@[simp] theorem State.takeCommand_responses (s : State) : (s.takeCommand).responses = s.responses := rfl
@[simp] theorem State.takeCommand_trace (s : State) : (s.takeCommand).trace = s.trace := rfl
@[simp] theorem State.takeCommand_awaiting (s : State) : (s.takeCommand).awaiting = s.awaiting := rfl
@[simp] theorem State.takeCommand_faultAddr (s : State) : (s.takeCommand).faultAddr = s.faultAddr := rfl
@[simp] theorem State.takeCommand_draws (s : State) : (s.takeCommand).draws = s.draws := rfl
@[simp] theorem State.takeCommand_moves (s : State) : (s.takeCommand).moves = s.moves := rfl

/-! ### respond -/

@[simp] theorem State.respond_state (s : State) (r : ResultCode) (v : Word) : (s.respond r v).state = s.state := rfl
@[simp] theorem State.respond_rxQueue (s : State) (r : ResultCode) (v : Word) : (s.respond r v).rxQueue = s.rxQueue := rfl
@[simp] theorem State.respond_lastError (s : State) (r : ResultCode) (v : Word) : (s.respond r v).lastError = s.lastError := rfl
@[simp] theorem State.respond_rxIrqEnable (s : State) (r : ResultCode) (v : Word) : (s.respond r v).rxIrqEnable = s.rxIrqEnable := rfl
@[simp] theorem State.respond_dropped (s : State) (r : ResultCode) (v : Word) : (s.respond r v).dropped = s.dropped := rfl
@[simp] theorem State.respond_send (s : State) (r : ResultCode) (v : Word) : (s.respond r v).send = s.send := rfl
@[simp] theorem State.respond_faulted (s : State) (r : ResultCode) (v : Word) : (s.respond r v).faulted = s.faulted := rfl
@[simp] theorem State.respond_mem (s : State) (r : ResultCode) (v : Word) : (s.respond r v).mem = s.mem := rfl
@[simp] theorem State.respond_hostMem (s : State) (r : ResultCode) (v : Word) : (s.respond r v).hostMem = s.hostMem := rfl
@[simp] theorem State.respond_cmdPort (s : State) (r : ResultCode) (v : Word) : (s.respond r v).cmdPort = s.cmdPort := rfl
@[simp] theorem State.respond_rxPort (s : State) (r : ResultCode) (v : Word) : (s.respond r v).rxPort = s.rxPort := rfl
@[simp] theorem State.respond_fifoEngine (s : State) (r : ResultCode) (v : Word) : (s.respond r v).fifoEngine = s.fifoEngine := rfl
@[simp] theorem State.respond_fifoPort (s : State) (r : ResultCode) (v : Word) : (s.respond r v).fifoPort = s.fifoPort := rfl
@[simp] theorem State.respond_fifoReply (s : State) (r : ResultCode) (v : Word) : (s.respond r v).fifoReply = s.fifoReply := rfl
@[simp] theorem State.respond_txReady (s : State) (r : ResultCode) (v : Word) : (s.respond r v).txReady = s.txReady := rfl
@[simp] theorem State.respond_responses (s : State) (r : ResultCode) (v : Word) : (s.respond r v).responses = s.responses ++ [responseWord r v] := rfl
@[simp] theorem State.respond_trace (s : State) (r : ResultCode) (v : Word) : (s.respond r v).trace = s.trace := rfl
@[simp] theorem State.respond_awaiting (s : State) (r : ResultCode) (v : Word) : (s.respond r v).awaiting = s.cmdPort.isSome := rfl
@[simp] theorem State.respond_faultAddr (s : State) (r : ResultCode) (v : Word) : (s.respond r v).faultAddr = s.faultAddr := rfl
@[simp] theorem State.respond_draws (s : State) (r : ResultCode) (v : Word) : (s.respond r v).draws = s.draws := rfl
@[simp] theorem State.respond_moves (s : State) (r : ResultCode) (v : Word) : (s.respond r v).moves = s.moves := rfl

/-! ### emit -/

@[simp] theorem State.emit_state (s : State) (e : OutputEvent) : (s.emit e).state = s.state := rfl
@[simp] theorem State.emit_rxQueue (s : State) (e : OutputEvent) : (s.emit e).rxQueue = s.rxQueue := rfl
@[simp] theorem State.emit_lastError (s : State) (e : OutputEvent) : (s.emit e).lastError = s.lastError := rfl
@[simp] theorem State.emit_rxIrqEnable (s : State) (e : OutputEvent) : (s.emit e).rxIrqEnable = s.rxIrqEnable := rfl
@[simp] theorem State.emit_dropped (s : State) (e : OutputEvent) : (s.emit e).dropped = s.dropped := rfl
@[simp] theorem State.emit_send (s : State) (e : OutputEvent) : (s.emit e).send = s.send := rfl
@[simp] theorem State.emit_faulted (s : State) (e : OutputEvent) : (s.emit e).faulted = s.faulted := rfl
@[simp] theorem State.emit_mem (s : State) (e : OutputEvent) : (s.emit e).mem = s.mem := rfl
@[simp] theorem State.emit_hostMem (s : State) (e : OutputEvent) : (s.emit e).hostMem = s.hostMem := rfl
@[simp] theorem State.emit_cmdPort (s : State) (e : OutputEvent) : (s.emit e).cmdPort = s.cmdPort := rfl
@[simp] theorem State.emit_rxPort (s : State) (e : OutputEvent) : (s.emit e).rxPort = s.rxPort := rfl
@[simp] theorem State.emit_fifoEngine (s : State) (e : OutputEvent) : (s.emit e).fifoEngine = s.fifoEngine := rfl
@[simp] theorem State.emit_fifoPort (s : State) (e : OutputEvent) : (s.emit e).fifoPort = s.fifoPort := rfl
@[simp] theorem State.emit_fifoReply (s : State) (e : OutputEvent) : (s.emit e).fifoReply = s.fifoReply := rfl
@[simp] theorem State.emit_txReady (s : State) (e : OutputEvent) : (s.emit e).txReady = s.txReady := rfl
@[simp] theorem State.emit_responses (s : State) (e : OutputEvent) : (s.emit e).responses = s.responses := rfl
@[simp] theorem State.emit_trace (s : State) (e : OutputEvent) : (s.emit e).trace = s.trace ++ [e] := rfl
@[simp] theorem State.emit_awaiting (s : State) (e : OutputEvent) : (s.emit e).awaiting = s.awaiting := rfl
@[simp] theorem State.emit_faultAddr (s : State) (e : OutputEvent) : (s.emit e).faultAddr = s.faultAddr := rfl
@[simp] theorem State.emit_draws (s : State) (e : OutputEvent) : (s.emit e).draws = s.draws := rfl
@[simp] theorem State.emit_moves (s : State) (e : OutputEvent) : (s.emit e).moves = s.moves := rfl

/-! ### raiseHostBusFault -/

@[simp] theorem State.raiseHostBusFault_state (s : State) (a : Word) : (s.raiseHostBusFault a).state = s.state := rfl
@[simp] theorem State.raiseHostBusFault_rxQueue (s : State) (a : Word) : (s.raiseHostBusFault a).rxQueue = s.rxQueue := rfl
@[simp] theorem State.raiseHostBusFault_lastError (s : State) (a : Word) : (s.raiseHostBusFault a).lastError = s.lastError := rfl
@[simp] theorem State.raiseHostBusFault_rxIrqEnable (s : State) (a : Word) : (s.raiseHostBusFault a).rxIrqEnable = false := rfl
@[simp] theorem State.raiseHostBusFault_dropped (s : State) (a : Word) : (s.raiseHostBusFault a).dropped = s.dropped := rfl
@[simp] theorem State.raiseHostBusFault_send (s : State) (a : Word) : (s.raiseHostBusFault a).send = s.send := rfl
@[simp] theorem State.raiseHostBusFault_faulted (s : State) (a : Word) : (s.raiseHostBusFault a).faulted = true := rfl
@[simp] theorem State.raiseHostBusFault_mem (s : State) (a : Word) : (s.raiseHostBusFault a).mem = s.mem := rfl
@[simp] theorem State.raiseHostBusFault_hostMem (s : State) (a : Word) : (s.raiseHostBusFault a).hostMem = s.hostMem := rfl
@[simp] theorem State.raiseHostBusFault_cmdPort (s : State) (a : Word) : (s.raiseHostBusFault a).cmdPort = s.cmdPort := rfl
@[simp] theorem State.raiseHostBusFault_rxPort (s : State) (a : Word) : (s.raiseHostBusFault a).rxPort = s.rxPort := rfl
@[simp] theorem State.raiseHostBusFault_fifoEngine (s : State) (a : Word) : (s.raiseHostBusFault a).fifoEngine = s.fifoEngine := rfl
@[simp] theorem State.raiseHostBusFault_fifoPort (s : State) (a : Word) : (s.raiseHostBusFault a).fifoPort = s.fifoPort := rfl
@[simp] theorem State.raiseHostBusFault_fifoReply (s : State) (a : Word) : (s.raiseHostBusFault a).fifoReply = s.fifoReply := rfl
@[simp] theorem State.raiseHostBusFault_txReady (s : State) (a : Word) : (s.raiseHostBusFault a).txReady = s.txReady := rfl
@[simp] theorem State.raiseHostBusFault_responses (s : State) (a : Word) : (s.raiseHostBusFault a).responses = s.responses := rfl
@[simp] theorem State.raiseHostBusFault_trace (s : State) (a : Word) : (s.raiseHostBusFault a).trace = s.trace := rfl
@[simp] theorem State.raiseHostBusFault_awaiting (s : State) (a : Word) : (s.raiseHostBusFault a).awaiting = s.awaiting := rfl
@[simp] theorem State.raiseHostBusFault_faultAddr (s : State) (a : Word) : (s.raiseHostBusFault a).faultAddr = some a := rfl
@[simp] theorem State.raiseHostBusFault_draws (s : State) (a : Word) : (s.raiseHostBusFault a).draws = s.draws := rfl
@[simp] theorem State.raiseHostBusFault_moves (s : State) (a : Word) : (s.raiseHostBusFault a).moves = s.moves := rfl

/-! ### setHostByte -/

@[simp] theorem State.setHostByte_state (s : State) (a : Word) (v : Byte) : (s.setHostByte a v).state = s.state := rfl
@[simp] theorem State.setHostByte_rxQueue (s : State) (a : Word) (v : Byte) : (s.setHostByte a v).rxQueue = s.rxQueue := rfl
@[simp] theorem State.setHostByte_lastError (s : State) (a : Word) (v : Byte) : (s.setHostByte a v).lastError = s.lastError := rfl
@[simp] theorem State.setHostByte_rxIrqEnable (s : State) (a : Word) (v : Byte) : (s.setHostByte a v).rxIrqEnable = s.rxIrqEnable := rfl
@[simp] theorem State.setHostByte_dropped (s : State) (a : Word) (v : Byte) : (s.setHostByte a v).dropped = s.dropped := rfl
@[simp] theorem State.setHostByte_send (s : State) (a : Word) (v : Byte) : (s.setHostByte a v).send = s.send := rfl
@[simp] theorem State.setHostByte_faulted (s : State) (a : Word) (v : Byte) : (s.setHostByte a v).faulted = s.faulted := rfl
@[simp] theorem State.setHostByte_mem (s : State) (a : Word) (v : Byte) : (s.setHostByte a v).mem = memInsert s.mem a.toNat v := rfl
@[simp] theorem State.setHostByte_hostMem (s : State) (a : Word) (v : Byte) : (s.setHostByte a v).hostMem = s.hostMem := rfl
@[simp] theorem State.setHostByte_cmdPort (s : State) (a : Word) (v : Byte) : (s.setHostByte a v).cmdPort = s.cmdPort := rfl
@[simp] theorem State.setHostByte_rxPort (s : State) (a : Word) (v : Byte) : (s.setHostByte a v).rxPort = s.rxPort := rfl
@[simp] theorem State.setHostByte_fifoEngine (s : State) (a : Word) (v : Byte) : (s.setHostByte a v).fifoEngine = s.fifoEngine := rfl
@[simp] theorem State.setHostByte_fifoPort (s : State) (a : Word) (v : Byte) : (s.setHostByte a v).fifoPort = s.fifoPort := rfl
@[simp] theorem State.setHostByte_fifoReply (s : State) (a : Word) (v : Byte) : (s.setHostByte a v).fifoReply = s.fifoReply := rfl
@[simp] theorem State.setHostByte_txReady (s : State) (a : Word) (v : Byte) : (s.setHostByte a v).txReady = s.txReady := rfl
@[simp] theorem State.setHostByte_responses (s : State) (a : Word) (v : Byte) : (s.setHostByte a v).responses = s.responses := rfl
@[simp] theorem State.setHostByte_trace (s : State) (a : Word) (v : Byte) : (s.setHostByte a v).trace = s.trace := rfl
@[simp] theorem State.setHostByte_awaiting (s : State) (a : Word) (v : Byte) : (s.setHostByte a v).awaiting = s.awaiting := rfl
@[simp] theorem State.setHostByte_faultAddr (s : State) (a : Word) (v : Byte) : (s.setHostByte a v).faultAddr = s.faultAddr := rfl
@[simp] theorem State.setHostByte_draws (s : State) (a : Word) (v : Byte) : (s.setHostByte a v).draws = s.draws := rfl
@[simp] theorem State.setHostByte_moves (s : State) (a : Word) (v : Byte) : (s.setHostByte a v).moves = s.moves := rfl

/-! ### powerReset -/

@[simp] theorem State.powerReset_state (s : State) : (s.powerReset).state = .closed := rfl
@[simp] theorem State.powerReset_rxQueue (s : State) : (s.powerReset).rxQueue = s.rxQueue.init := rfl
@[simp] theorem State.powerReset_lastError (s : State) : (s.powerReset).lastError = .success := rfl
@[simp] theorem State.powerReset_rxIrqEnable (s : State) : (s.powerReset).rxIrqEnable = false := rfl
@[simp] theorem State.powerReset_dropped (s : State) : (s.powerReset).dropped = 0 := rfl
@[simp] theorem State.powerReset_send (s : State) : (s.powerReset).send = .idle := rfl
@[simp] theorem State.powerReset_faulted (s : State) : (s.powerReset).faulted = false := rfl
@[simp] theorem State.powerReset_mem (s : State) : (s.powerReset).mem = s.mem := rfl
@[simp] theorem State.powerReset_hostMem (s : State) : (s.powerReset).hostMem = s.hostMem := rfl
@[simp] theorem State.powerReset_cmdPort (s : State) : (s.powerReset).cmdPort = s.cmdPort := rfl
@[simp] theorem State.powerReset_rxPort (s : State) : (s.powerReset).rxPort = s.rxPort := rfl
@[simp] theorem State.powerReset_fifoEngine (s : State) : (s.powerReset).fifoEngine = s.fifoEngine := rfl
@[simp] theorem State.powerReset_fifoPort (s : State) : (s.powerReset).fifoPort = s.fifoPort := rfl
@[simp] theorem State.powerReset_fifoReply (s : State) : (s.powerReset).fifoReply = s.fifoReply := rfl
@[simp] theorem State.powerReset_txReady (s : State) : (s.powerReset).txReady = s.txReady := rfl
@[simp] theorem State.powerReset_responses (s : State) : (s.powerReset).responses = s.responses := rfl
@[simp] theorem State.powerReset_trace (s : State) : (s.powerReset).trace = s.trace := rfl
@[simp] theorem State.powerReset_awaiting (s : State) : (s.powerReset).awaiting = s.awaiting := rfl
@[simp] theorem State.powerReset_faultAddr (s : State) : (s.powerReset).faultAddr = none := rfl
@[simp] theorem State.powerReset_draws (s : State) : (s.powerReset).draws = s.draws := rfl
@[simp] theorem State.powerReset_moves (s : State) : (s.powerReset).moves = s.moves := rfl

/-! ### The FIFO engine's operations keep the capacity; which fields each keeps -/

@[simp] theorem Fifo.init_capacity {w : Nat} (q : Fifo w) : q.init.capacity = q.capacity := rfl
@[simp] theorem Fifo.init_count {w : Nat} (q : Fifo w) : q.init.count = 0 := rfl
@[simp] theorem Fifo.init_writeIndex {w : Nat} (q : Fifo w) : q.init.writeIndex = 0 := rfl
@[simp] theorem Fifo.init_readIndex {w : Nat} (q : Fifo w) : q.init.readIndex = 0 := rfl
@[simp] theorem Fifo.init_storage {w : Nat} (q : Fifo w) : q.init.storage = q.storage := rfl

@[simp] theorem Fifo.full_iff {w : Nat} (q : Fifo w) : q.full = true ↔ q.count = q.capacity := by simp [Fifo.full]

@[simp] theorem Fifo.empty_iff {w : Nat} (q : Fifo w) : q.empty = true ↔ q.count = 0 := by simp [Fifo.empty]

/-- The port can accept exactly when no send is busy and the block is not faulted (30_encoding.md R72). -/
@[simp] theorem State.ready_iff (s : State) : s.ready = true ↔ s.send = .idle ∧ s.faulted = false := by
  simp [State.ready]

end Sys2Proof.Machine
end

