-- ==== Sys2Proof/Laws/Fifo.lean ====
section
/-!
SUPPORT. The FIFO engine: what each operation answers, that each keeps the invariant, and what each does to the queued
elements (40_fifo_engine.md R101 to R104).
-/

namespace Sys2Proof.Machine

variable {w : Nat} {q : Fifo w}

/-- A sum of two numbers below the capacity, reduced. -/
theorem add_mod_capacity {r i c : Nat} (hr : r < c) (hi : i ≤ c) :
    (r + i) % c = if r + i < c then r + i else r + i - c := by
  split
  · exact Nat.mod_eq_of_lt ‹_›
  · rw [Nat.mod_eq_sub_mod (by omega), Nat.mod_eq_of_lt (by omega)]

/-! ### What each operation answers -/

theorem tryPush_full (v : BitVec w) (h : q.count = q.capacity) : q.tryPush v = (q, false) := by
  simp [Fifo.tryPush, Fifo.full, h]

theorem tryPush_not_full (v : BitVec w) (h : q.count ≠ q.capacity) :
    q.tryPush v =
      ({ q with storage := q.storage.set q.writeIndex v, count := q.count + 1,
                writeIndex := (q.writeIndex + 1) % q.capacity }, true) := by
  simp [Fifo.tryPush, Fifo.full, h]

theorem tryPop_empty (d : BitVec w) (h : q.count = 0) : q.tryPop d = (q, { fok := false, frdata := d }) := by
  simp [Fifo.tryPop, Fifo.empty, h]

theorem tryPop_not_empty (d : BitVec w) (h : q.count ≠ 0) :
    q.tryPop d =
      ({ q with count := q.count - 1, readIndex := (q.readIndex + 1) % q.capacity },
        { fok := true, frdata := (q.storage[q.readIndex]?).getD d }) := by
  simp [Fifo.tryPop, Fifo.empty, h]

/-! ### Each operation keeps the invariant (10_state.md R22) -/

theorem Fifo.Inv.init (h : q.Inv) : q.init.Inv where
  capacity_pos := h.capacity_pos
  capacity_le := h.capacity_le
  count_le := Nat.zero_le _
  writeIndex_lt := h.capacity_pos
  readIndex_lt := h.capacity_pos
  storage_length := h.storage_length
  writeIndex_eq := by simp

theorem Fifo.Inv.tryPush (h : q.Inv) (v : BitVec w) : (q.tryPush v).1.Inv := by
  by_cases hf : q.count = q.capacity
  · rw [tryPush_full v hf]; exact h
  · rw [tryPush_not_full v hf]
    have hpos : 0 < q.capacity := h.capacity_pos
    have := h.count_le
    exact
      { capacity_pos := h.capacity_pos, capacity_le := h.capacity_le
        count_le := by show q.count + 1 ≤ q.capacity; omega
        writeIndex_lt := Nat.mod_lt _ hpos, readIndex_lt := h.readIndex_lt
        storage_length := by simp [h.storage_length]
        writeIndex_eq := by
          show (q.writeIndex + 1) % q.capacity = (q.readIndex + (q.count + 1)) % q.capacity
          rw [h.writeIndex_eq, Nat.mod_add_mod, Nat.add_assoc] }

theorem Fifo.Inv.tryPop (h : q.Inv) (d : BitVec w) : (q.tryPop d).1.Inv := by
  by_cases he : q.count = 0
  · rw [tryPop_empty d he]; exact h
  · rw [tryPop_not_empty d he]
    have hpos : 0 < q.capacity := h.capacity_pos
    have := h.count_le
    exact
      { capacity_pos := h.capacity_pos, capacity_le := h.capacity_le
        count_le := by show q.count - 1 ≤ q.capacity; omega
        writeIndex_lt := h.writeIndex_lt, readIndex_lt := Nat.mod_lt _ hpos
        storage_length := h.storage_length
        writeIndex_eq := by
          show q.writeIndex = ((q.readIndex + 1) % q.capacity + (q.count - 1)) % q.capacity
          rw [h.writeIndex_eq, Nat.mod_add_mod]; congr 1; omega }

theorem Fifo.Inv.serve (h : q.Inv) (r : FifoRequest w) (d : BitVec w) : (q.serve r d).1.Inv := by
  unfold Fifo.serve
  split
  · exact h
  · exact h.tryPush _
  · exact h.tryPop _
  · exact h.init

/-! ### What each operation does to the queued elements (40_fifo_engine.md R104) -/

@[simp] theorem contents_length (q : Fifo w) : q.contents.length = q.count := by simp [Fifo.contents]

@[simp] theorem contents_init (q : Fifo w) : q.init.contents = [] := by simp [Fifo.contents]

theorem contents_of_count_zero (h : q.count = 0) : q.contents = [] := by simp [Fifo.contents, h]

/-- A push that succeeds adds the value behind the queued ones. -/
theorem contents_tryPush (hq : q.Inv) (v : BitVec w) (h : q.count ≠ q.capacity) :
    (q.tryPush v).1.contents = q.contents ++ [v] := by
  have hc := hq.count_le
  have hr := hq.readIndex_lt
  have hlen := hq.storage_length
  rw [tryPush_not_full v h]
  simp only [Fifo.contents, List.range_succ, List.map_append, List.map_cons, List.map_nil]
  congr 1
  · apply List.map_congr_left
    intro i hi
    rw [List.mem_range] at hi
    have hne : q.writeIndex ≠ (q.readIndex + i) % q.capacity := by
      rw [hq.writeIndex_eq, add_mod_capacity hr (by omega), add_mod_capacity hr (by omega)]
      split <;> split <;> omega
    simp [List.getElem?_set_ne hne]
  · rw [← hq.writeIndex_eq, List.getElem?_set_self (by rw [hlen]; exact hq.writeIndex_lt)]
    rfl

/-- A pop that succeeds answers the oldest queued value and leaves the others. -/
theorem contents_tryPop (hq : q.Inv) (d : BitVec w) (h : q.count ≠ 0) :
    q.contents = (q.tryPop d).2.frdata :: (q.tryPop d).1.contents := by
  have hr := hq.readIndex_lt
  rw [tryPop_not_empty d h]
  obtain ⟨n, hn⟩ := Nat.exists_eq_succ_of_ne_zero h
  simp only [Fifo.contents, hn, Nat.succ_eq_add_one, Nat.add_sub_cancel, List.range_succ_eq_map, List.map_cons,
    List.map_map]
  congr 1
  · rw [Nat.add_zero, Nat.mod_eq_of_lt hr, List.getElem?_eq_getElem (by rw [hq.storage_length]; exact hr)]
    rfl
  · apply List.map_congr_left
    intro i _
    simp [Nat.mod_add_mod, Nat.add_assoc, Nat.add_comm 1]

/-- n successful pops in a row, as one update. -/
def popN (n : Nat) (q : Fifo w) : Fifo w :=
  { q with count := q.count - n, readIndex := (q.readIndex + n) % q.capacity }

theorem popN_zero (h : q.readIndex < q.capacity) : popN 0 q = q := by
  cases q; simp_all [popN, Nat.mod_eq_of_lt]

theorem popN_succ (n : Nat) (d : BitVec w) (h : q.count ≠ 0) : popN n (q.tryPop d).1 = popN (n + 1) q := by
  rw [tryPop_not_empty d h]
  simp only [popN, Nat.mod_add_mod, Nat.add_assoc, Nat.add_comm 1 n]
  congr 1; omega

theorem Fifo.Inv.popN (h : q.Inv) {n : Nat} (hn : n ≤ q.count) : (popN n q).Inv := by
  have hpos : 0 < q.capacity := h.capacity_pos
  have := h.count_le
  exact
    { capacity_pos := h.capacity_pos, capacity_le := h.capacity_le
      count_le := by show q.count - n ≤ q.capacity; omega
      writeIndex_lt := h.writeIndex_lt, readIndex_lt := Nat.mod_lt _ hpos
      storage_length := h.storage_length
      writeIndex_eq := by
        show q.writeIndex = ((q.readIndex + n) % q.capacity + (q.count - n)) % q.capacity
        rw [h.writeIndex_eq, Nat.mod_add_mod]; congr 1; omega }

/-- n pops leave the queued values but for the n oldest. -/
theorem contents_popN (q : Fifo w) (n : Nat) : (popN n q).contents = q.contents.drop n := by
  apply List.ext_getElem
  · simp [popN]
  · intro i h1 h2
    simp [Fifo.contents, popN, Nat.mod_add_mod, Nat.add_assoc]

end Sys2Proof.Machine
end

