-- ==== Sys2Proof/Laws/Memory.lean ====
section
/-!
SUPPORT. Host memory: a read after a write, the canonical form every operation keeps, what MemRead and MemWrite can do.
-/

namespace Sys2Proof.Machine

/-- Looking up after listing: the byte listed, elsewhere what was listed before. -/
theorem memLookup_memInsert (m : Memory) (a b : Nat) (v : Byte) :
    memLookup (memInsert m a v) b = if b = a then some v else memLookup m b := by
  induction m with
  | nil => simp [memInsert, memLookup]
  | cons c m ih =>
    obtain ⟨k, u⟩ := c
    simp only [memInsert]
    split
    · simp [memLookup]
    · split
      · subst_vars; simp only [memLookup]; split <;> simp_all
      · simp only [memLookup, ih]; split <;> split <;> first | rfl | (exfalso; omega)

/-- The byte held after listing one: the byte listed, elsewhere as before. -/
theorem memByte_memInsert (m : Memory) (a b : Word) (v : Byte) :
    memByte (memInsert m a.toNat v) b = if b = a then v else memByte m b := by
  simp only [memByte, memLookup_memInsert, BitVec.toNat_inj]
  split <;> rfl

/-- What host memory holds is what its listed bytes say. -/
@[simp] theorem State.hostByte_def (s : State) (a : Word) : s.hostByte a = memByte s.mem a := rfl

/-- A lower bound on the listed addresses may be lowered. -/
theorem memFrom_mono {m : Memory} {lo lo' : Nat} (h : lo' ≤ lo) (hm : memFrom lo m = true) : memFrom lo' m = true := by
  cases m with
  | nil => rfl
  | cons c m => simp only [memFrom, Bool.and_eq_true, decide_eq_true_eq] at *; exact ⟨⟨by omega, hm.1.2⟩, hm.2⟩

/-- Listing a byte keeps the addresses strictly rising. -/
theorem memFrom_memInsert {m : Memory} {lo a : Nat} (v : Byte) (ha : lo ≤ a) (ha' : a < 2 ^ 32)
    (hm : memFrom lo m = true) : memFrom lo (memInsert m a v) = true := by
  induction m generalizing lo with
  | nil => simp [memInsert, memFrom, ha]; exact ha'
  | cons c m ih =>
    obtain ⟨k, u⟩ := c
    simp only [memFrom, Bool.and_eq_true, decide_eq_true_eq] at hm
    simp only [memInsert]
    split
    · simp only [memFrom, Bool.and_eq_true, decide_eq_true_eq]
      exact ⟨⟨ha, ha'⟩, ⟨by omega, hm.1.2⟩, hm.2⟩
    · split
      · subst_vars; simp only [memFrom, Bool.and_eq_true, decide_eq_true_eq]; exact ⟨⟨ha, ha'⟩, hm.2⟩
      · simp only [memFrom, Bool.and_eq_true, decide_eq_true_eq]
        exact ⟨hm.1, ih (by omega) hm.2⟩

/-- Writing a byte keeps the canonical form of host memory. -/
theorem setHostByte_wf (s : State) (a : Word) (v : Byte) (h : s.mem.wf = true) : (s.setHostByte a v).mem.wf = true :=
  memFrom_memInsert v (Nat.zero_le _) a.isLt h

/-- Listing a byte at a word's address keeps the canonical form. -/
theorem memInsert_wf {m : Memory} (a : Word) (v : Byte) (h : m.wf = true) :
    Memory.wf (memInsert m a.toNat v) = true :=
  memFrom_memInsert v (Nat.zero_le _) a.isLt h

/-- What MemWrite can do: if it answers a state, the access was admitted and that byte is written. -/
theorem memWrite_eq_some {s t : State} {a : Word} {v : Byte} (h : s.memWrite a v = some t) :
    s.admits a .write = true ∧ t = s.setHostByte a v := by
  unfold State.memWrite at h
  split at h
  · exact ⟨‹_›, (Option.some.inj h).symm⟩
  · cases h

/-- MemWrite answers nothing exactly when the access is not admitted (20_memory.md R53). -/
theorem memWrite_eq_none {s : State} {a : Word} {v : Byte} : s.memWrite a v = none ↔ s.admits a .write = false := by
  simp [State.memWrite]

/-- MemRead answers nothing exactly when the access is not admitted (20_memory.md R53). -/
theorem memRead_eq_none {s : State} {a : Word} : s.memRead a = none ↔ s.admits a .read = false := by
  simp [State.memRead]

/-- If MemRead answers a byte, the access was admitted and it is the byte host memory holds. -/
theorem memRead_eq_some {s : State} {a : Word} {c : Byte} (h : s.memRead a = some c) :
    s.admits a .read = true ∧ c = s.hostByte a := by
  unfold State.memRead at h
  split at h
  · exact ⟨‹_›, (Option.some.inj h).symm⟩
  · cases h

/-- What is admitted depends on the host-memory map alone. -/
theorem admits_congr {s t : State} (h : s.hostMem = t.hostMem) (a : Word) (k : AccessKind) :
    s.admits a k = t.admits a k := by
  simp [State.admits, h]

end Sys2Proof.Machine
end

