-- ==== Sys2Proof/Laws/Drain.lean ====
section
/-!
SUPPORT. The drain's pops and writes (43_drain.md R161, R164): n pops in a row and the popped bytes written one after
another, or the same up to the first write HostMem does not admit.
-/

namespace Sys2Proof.Machine

/-! ### Buffer addresses (20_memory.md R54) -/

@[simp] theorem bufferAddr_zero (a : Word) : bufferAddr a 0 = a := by simp [bufferAddr]

theorem bufferAddr_succ (a : Word) (i : Nat) : bufferAddr (a + 1) i = bufferAddr a (i + 1) := by
  simp only [bufferAddr, BitVec.ofNat_add]; ac_rfl

/-- Two offsets below 2^32 name the same buffer address only if they are equal. -/
theorem bufferAddr_inj {a : Word} {i j : Nat} (hi : i < 2 ^ 32) (hj : j < 2 ^ 32)
    (h : bufferAddr a i = bufferAddr a j) : i = j := by
  have : BitVec.ofNat 32 i = BitVec.ofNat 32 j := by simpa [bufferAddr] using h
  have := congrArg BitVec.toNat this
  simp only [BitVec.toNat_ofNat] at this
  omega

/-! ### Bytes written one after another -/

/-- List bytes one after another from an address on, addresses modulo 2^32 (20_memory.md R54). -/
def writeBytes : Memory → Word → List Byte → Memory
  | m, _, [] => m
  | m, a, v :: vs => writeBytes (memInsert m a.toNat v) (a + 1) vs

theorem writeBytes_wf {m : Memory} (h : m.wf = true) (a : Word) (vs : List Byte) : (writeBytes m a vs).wf = true := by
  induction vs generalizing a m with
  | nil => exact h
  | cons v vs ih => exact ih (memInsert_wf a v h) _

/-- Outside the written bytes, memory is as before. -/
theorem memByte_writeBytes_outside {m : Memory} {a b : Word} {vs : List Byte}
    (h : ∀ i < vs.length, b ≠ bufferAddr a i) : memByte (writeBytes m a vs) b = memByte m b := by
  induction vs generalizing a m with
  | nil => rfl
  | cons v vs ih =>
    rw [writeBytes, ih, memByte_memInsert, if_neg]
    · simpa using h 0 (by simp)
    · intro i hi
      rw [bufferAddr_succ]
      exact h (i + 1) (by simpa using hi)

/-- Byte i of a written buffer is the i-th value. -/
theorem memByte_writeBytes_inside {m : Memory} {a : Word} {vs : List Byte} (hlen : vs.length ≤ 2 ^ 32) {i : Nat}
    (hi : i < vs.length) : memByte (writeBytes m a vs) (bufferAddr a i) = vs[i] := by
  induction vs generalizing a m i with
  | nil => simp at hi
  | cons v vs ih =>
    have hlen' : vs.length + 1 ≤ 2 ^ 32 := by simpa using hlen
    cases i with
    | zero =>
      rw [writeBytes, memByte_writeBytes_outside, memByte_memInsert]
      · simp
      · intro j hj he
        rw [bufferAddr_succ] at he
        have := bufferAddr_inj (by omega) (by omega) he
        omega
    | succ i =>
      rw [writeBytes, ← bufferAddr_succ, ih (by omega) (by simpa using hi)]
      rfl

/-! ### The drain -/

/-- One pop and write of the drain, when HostMem admits the write. -/
theorem drain_succ_admitted {n : Nat} {a : Word} {s : State} (ha : s.admits a .write = true) :
    drain (n + 1) a s =
      drain n (a + 1)
        { s with
          rxQueue := (s.rxQueue.tryPop (Config.freeData 8 s.draws)).1
          mem := memInsert s.mem a.toNat (s.rxQueue.tryPop (Config.freeData 8 s.draws)).2.frdata } := by
  rw [drain, State.memWrite, if_pos (by exact ha)]
  rfl

/-- One pop of the drain, when HostMem does not admit the write. -/
theorem drain_succ_faulted {n : Nat} {a : Word} {s : State} (ha : s.admits a .write = false) :
    drain (n + 1) a s =
      (({ s with rxQueue := (s.rxQueue.tryPop (Config.freeData 8 s.draws)).1 }).raiseHostBusFault a, false) := by
  rw [drain, State.memWrite, if_neg (by simpa [State.admits] using ha)]

/-- The drain when HostMem admits every write: the n oldest bytes popped and written (R161, R162). -/
theorem drain_admitted {n : Nat} {a : Word} {s : State} (hq : s.rxQueue.Inv) (hn : n ≤ s.rxQueue.count)
    (h : ∀ i < n, s.admits (bufferAddr a i) .write = true) :
    drain n a s =
      ({ s with rxQueue := popN n s.rxQueue, mem := writeBytes s.mem a (s.rxQueue.contents.take n) }, true) := by
  induction n generalizing a s with
  | zero => simp [drain, popN_zero hq.readIndex_lt, writeBytes]
  | succ n ih =>
    have hne : s.rxQueue.count ≠ 0 := by omega
    rw [drain_succ_admitted (by simpa using h 0 (by omega)), ih (by exact hq.tryPop _)]
    · rw [contents_tryPop hq (Config.freeData 8 s.draws) hne, List.take_succ_cons, writeBytes,
        ← popN_succ n (Config.freeData 8 s.draws) hne]
    · rw [tryPop_not_empty _ hne]; show n ≤ s.rxQueue.count - 1; omega
    · intro i hi
      rw [bufferAddr_succ]
      exact h (i + 1) (by omega)

/-- The drain when HostMem does not admit the write of byte k: k bytes popped and written, byte k popped and lost, the
block stopped (R164). -/
theorem drain_faulted {n k : Nat} {a : Word} {s : State} (hq : s.rxQueue.Inv) (hn : n ≤ s.rxQueue.count) (hk : k < n)
    (h : ∀ i < k, s.admits (bufferAddr a i) .write = true) (hf : s.admits (bufferAddr a k) .write = false) :
    drain n a s =
      (({ s with
          rxQueue := popN (k + 1) s.rxQueue
          mem := writeBytes s.mem a (s.rxQueue.contents.take k) }).raiseHostBusFault (bufferAddr a k), false) := by
  obtain ⟨n, rfl⟩ := Nat.exists_eq_succ_of_ne_zero (by omega : n ≠ 0)
  have hne : s.rxQueue.count ≠ 0 := by omega
  induction k generalizing a s n with
  | zero =>
    rw [Nat.succ_eq_add_one, drain_succ_faulted (by simpa using hf), ← popN_succ 0 (Config.freeData 8 s.draws) hne,
      popN_zero (hq.tryPop _).readIndex_lt]
    simp [writeBytes]
  | succ k ih =>
    obtain ⟨n, rfl⟩ := Nat.exists_eq_succ_of_ne_zero (by omega : n ≠ 0)
    have hc : (s.rxQueue.tryPop (Config.freeData 8 s.draws)).1.count = s.rxQueue.count - 1 := by
      rw [tryPop_not_empty _ hne]
    rw [Nat.succ_eq_add_one, drain_succ_admitted (by simpa using h 0 (by omega)), ih (by exact hq.tryPop _)]
    · rw [contents_tryPop hq (Config.freeData 8 s.draws) hne, List.take_succ_cons, writeBytes,
        ← popN_succ (k + 1) (Config.freeData 8 s.draws) hne, bufferAddr_succ]
    · intro i hi
      rw [bufferAddr_succ]
      exact h (i + 1) (by omega)
    · rw [bufferAddr_succ]; exact hf
    · show _ ≤ (s.rxQueue.tryPop (Config.freeData 8 s.draws)).1.count; omega
    · omega
    · show (s.rxQueue.tryPop (Config.freeData 8 s.draws)).1.count ≠ 0; omega

end Sys2Proof.Machine
end

