-- ==== Sys2Proof/Laws/Encoding.lean ====
section
/-!
SUPPORT. The fields of the three words (30_encoding.md R71, R76, R78): each field of a word built from fields is that
field, a word is built from its fields, and each field as arithmetic on the word.
-/

namespace Sys2Proof

/-! ### Bits of a built word -/

theorem commandWord_getLsbD (op : Byte) (a b : Word) (i : Nat) :
    (commandWord op a b).getLsbD i =
      if i < 8 then op.getLsbD i else if i - 8 < 32 then a.getLsbD (i - 8) else b.getLsbD (i - 8 - 32) := by
  show BitVec.getLsbD (w := 32 + 32 + 8) (b ++ a ++ op) i = _
  rw [BitVec.getLsbD_append, BitVec.getLsbD_append]

theorem eventWord_getLsbD (status : BitVec 10) (data : Byte) (i : Nat) :
    (eventWord status data).getLsbD i = if i < 8 then data.getLsbD i else status.getLsbD (i - 8) := by
  show BitVec.getLsbD (w := 10 + 8) (status ++ data) i = _
  rw [BitVec.getLsbD_append]

theorem fifoWord_getLsbD (fop : BitVec 2) (d : Byte) (i : Nat) :
    (fifoWord fop d).getLsbD i = if i < 2 then fop.getLsbD i else d.getLsbD (i - 2) := by
  show BitVec.getLsbD (w := 8 + 2) (d ++ fop) i = _
  rw [BitVec.getLsbD_append]

/-! ### The fields of a built word -/

@[simp] theorem cmdOp_commandWord (op : Byte) (a b : Word) : cmdOp (commandWord op a b) = op := by
  apply BitVec.eq_of_getLsbD_eq
  intro i hi
  simp only [cmdOp, BitVec.getLsbD_extractLsb', commandWord_getLsbD]
  simp [hi]

@[simp] theorem cmdA_commandWord (op : Byte) (a b : Word) : cmdA (commandWord op a b) = a := by
  apply BitVec.eq_of_getLsbD_eq
  intro i hi
  simp only [cmdA, BitVec.getLsbD_extractLsb', commandWord_getLsbD]
  simp [hi]

@[simp] theorem cmdB_commandWord (op : Byte) (a b : Word) : cmdB (commandWord op a b) = b := by
  apply BitVec.eq_of_getLsbD_eq
  intro i hi
  simp only [cmdB, BitVec.getLsbD_extractLsb', commandWord_getLsbD]
  rw [if_neg (by omega), if_neg (by omega)]
  simp [hi, show 40 + i - 8 - 32 = i by omega]

@[simp] theorem eventStatus_eventWord (status : BitVec 10) (data : Byte) :
    (eventWord status data).extractLsb' 8 10 = status := by
  apply BitVec.eq_of_getLsbD_eq
  intro i hi
  simp only [BitVec.getLsbD_extractLsb', eventWord_getLsbD]
  simp [hi]

@[simp] theorem eventData_eventWord (status : BitVec 10) (data : Byte) :
    (eventWord status data).extractLsb' 0 8 = data := by
  apply BitVec.eq_of_getLsbD_eq
  intro i hi
  simp only [BitVec.getLsbD_extractLsb', eventWord_getLsbD]
  simp [hi]

@[simp] theorem fifoOp_fifoWord (fop : BitVec 2) (d : Byte) : fifoOp (fifoWord fop d) = fop := by
  apply BitVec.eq_of_getLsbD_eq
  intro i hi
  simp only [fifoOp, BitVec.getLsbD_extractLsb', fifoWord_getLsbD]
  simp [hi]

@[simp] theorem fifoData_fifoWord (fop : BitVec 2) (d : Byte) : fifoData (fifoWord fop d) = d := by
  apply BitVec.eq_of_getLsbD_eq
  intro i hi
  simp only [fifoData, BitVec.getLsbD_extractLsb', fifoWord_getLsbD]
  rw [if_neg (by omega)]
  simp [hi]

/-- Bits of SEND_BYTE's first operand, built from its ignored bits and its byte. -/
theorem operand_getLsbD (hi : BitVec 24) (lo : Byte) (i : Nat) :
    BitVec.getLsbD (w := 32) (hi ++ lo) i = if i < 8 then lo.getLsbD i else hi.getLsbD (i - 8) := by
  show BitVec.getLsbD (w := 24 + 8) (hi ++ lo) i = _
  rw [BitVec.getLsbD_append]

/-- SEND_BYTE's byte is `a[7:0]` (30_encoding.md R73). -/
@[simp] theorem byte_of_operand (hi : BitVec 24) (lo : Byte) : BitVec.extractLsb' (n := 32) 0 8 (hi ++ lo) = lo := by
  apply BitVec.eq_of_getLsbD_eq
  intro i hi
  simp only [BitVec.getLsbD_extractLsb', operand_getLsbD]
  simp [hi]

/-- SEND_BYTE's ignored bits are `a[31:8]` (30_encoding.md R73). -/
@[simp] theorem ignored_of_operand (hi : BitVec 24) (lo : Byte) : BitVec.extractLsb' (n := 32) 8 24 (hi ++ lo) = hi := by
  apply BitVec.eq_of_getLsbD_eq
  intro i hi
  simp only [BitVec.getLsbD_extractLsb', operand_getLsbD]
  simp [hi]

/-! ### A word from its fields -/

theorem commandWord_fields (w : BitVec 72) : commandWord (cmdOp w) (cmdA w) (cmdB w) = w := by
  apply BitVec.eq_of_getLsbD_eq
  intro i hi
  rw [commandWord_getLsbD]
  simp only [cmdOp, cmdA, cmdB, BitVec.getLsbD_extractLsb']
  split
  · simp [*]
  · split
    · simp [*, show 8 + (i - 8) = i by omega]
    · simp [show 40 + (i - 8 - 32) = i by omega, show i - 8 - 32 < 32 by omega]

theorem eventWord_fields (w : BitVec 18) : eventWord (w.extractLsb' 8 10) (w.extractLsb' 0 8) = w := by
  apply BitVec.eq_of_getLsbD_eq
  intro i hi
  rw [eventWord_getLsbD]
  simp only [BitVec.getLsbD_extractLsb']
  split
  · simp [*]
  · simp [show 8 + (i - 8) = i by omega, show i - 8 < 10 by omega]

theorem fifoWord_fields (w : BitVec 10) : fifoWord (fifoOp w) (fifoData w) = w := by
  apply BitVec.eq_of_getLsbD_eq
  intro i hi
  rw [fifoWord_getLsbD]
  simp only [fifoOp, fifoData, BitVec.getLsbD_extractLsb']
  split
  · simp [*]
  · simp [show 2 + (i - 2) = i by omega, show i - 2 < 8 by omega]

theorem operand_of_byte (a : Word) : (a.extractLsb' 8 24 ++ a.extractLsb' 0 8 : Word) = a := by
  apply BitVec.eq_of_getLsbD_eq
  intro i hi
  show BitVec.getLsbD (w := 24 + 8) _ i = _
  rw [BitVec.getLsbD_append]
  simp only [BitVec.getLsbD_extractLsb']
  split
  · simp [*]
  · simp [show 8 + (i - 8) = i by omega, show i - 8 < 24 by omega]

/-! ### The fields as arithmetic -/

theorem cmdOp_toNat (w : BitVec 72) : (cmdOp w).toNat = w.toNat % 2 ^ 8 := by
  simp [cmdOp]

theorem cmdA_eq_ofNat (w : BitVec 72) : cmdA w = BitVec.ofNat 32 (w.toNat / 2 ^ 8) := by
  simp [cmdA, BitVec.extractLsb', Nat.shiftRight_eq_div_pow]

theorem cmdB_eq_ofNat (w : BitVec 72) : cmdB w = BitVec.ofNat 32 (w.toNat / 2 ^ 40) := by
  simp [cmdB, BitVec.extractLsb', Nat.shiftRight_eq_div_pow]

end Sys2Proof
end

