-- ==== Sys2Proof/Laws/Exec.lean ====
section
/-!
SUPPORT. What the meanings can do, said once: the cases of a command at its port, of a drain, of a transmit step, of a
receive event, and of `exec`. Proofs about all instructions split these cases and do not unfold the meanings.
-/

namespace Sys2Proof.Machine

/-! ### Commands at the port -/

theorem onCommandPort_ready {s : State} (h : s.ready = true) (f : State → State) :
    onCommandPort s f = .next (f s.takeCommand) := by
  rw [onCommandPort, if_pos h]

theorem onCommandPort_held {s : State} (h : s.ready = false) (f : State → State) : onCommandPort s f = .next s := by
  rw [onCommandPort, if_neg (by simp [h])]

/-! ### The drain, in every state -/

/-- A drain changes the queue's count and readIndex, host memory, and, at the first write HostMem does not admit, what
HostBusFault changes. -/
theorem drain_cases (n : Nat) (a : Word) (s : State) :
    ∃ c r m,
      drain n a s = ({ s with rxQueue := { s.rxQueue with count := c, readIndex := r }, mem := m }, true) ∨
      ∃ i < n, (∀ j < i, s.admits (bufferAddr a j) .write = true) ∧ s.admits (bufferAddr a i) .write = false ∧
        drain n a s =
          (({ s with rxQueue := { s.rxQueue with count := c, readIndex := r }, mem := m } : State).raiseHostBusFault
            (bufferAddr a i), false) := by
  induction n generalizing a s with
  | zero => exact ⟨s.rxQueue.count, s.rxQueue.readIndex, s.mem, .inl rfl⟩
  | succ n ih =>
    obtain ⟨c, r, hp⟩ : ∃ c r, (s.rxQueue.tryPop (Config.freeData 8 s.draws)).1 =
        { s.rxQueue with count := c, readIndex := r } := by
      by_cases h : s.rxQueue.count = 0
      · exact ⟨_, _, by rw [tryPop_empty _ h]⟩
      · exact ⟨_, _, by rw [tryPop_not_empty _ h]⟩
    by_cases ha : s.admits a .write = true
    · rw [drain_succ_admitted ha, hp]
      obtain ⟨c, r, m, h | ⟨i, hi, hj, hf, h⟩⟩ := ih (a + 1)
        { s with
          rxQueue := { s.rxQueue with count := c, readIndex := r }
          mem := memInsert s.mem a.toNat (s.rxQueue.tryPop (Config.freeData 8 s.draws)).2.frdata }
      · exact ⟨c, r, m, .inl h⟩
      · rw [bufferAddr_succ] at hf h
        refine ⟨c, r, m, .inr ⟨i + 1, by omega, fun j hj' => ?_, hf, h⟩⟩
        cases j with
        | zero => simpa using ha
        | succ j =>
          have := hj j (by omega)
          rw [bufferAddr_succ] at this
          exact this
    · have ha : s.admits a .write = false := by simpa using ha
      refine ⟨c, r, s.mem, .inr ⟨0, by omega, by simp, by simpa using ha, ?_⟩⟩
      rw [drain_succ_faulted ha, hp, bufferAddr_zero]

/-- The critical section of READ in every state: it completes and answers, or the first unadmitted write stops the
block. -/
theorem readEffect_cases (dst maxLength : Word) (s : State) :
    ∃ c r m,
      readEffect dst maxLength s =
          ({ s with
              rxQueue := { s.rxQueue with count := c, readIndex := r }, mem := m, rxIrqEnable := true } :
            State).respond .success (BitVec.ofNat 32 (min s.rxQueue.count maxLength.toNat)) ∨
      ∃ i < min s.rxQueue.count maxLength.toNat,
        (∀ j < i, s.admits (bufferAddr dst j) .write = true) ∧ s.admits (bufferAddr dst i) .write = false ∧
        readEffect dst maxLength s =
          ({ s with rxQueue := { s.rxQueue with count := c, readIndex := r }, mem := m } :
            State).raiseHostBusFault (bufferAddr dst i) := by
  obtain ⟨c, r, m, h | ⟨i, hi, hj, hf, h⟩⟩ :=
    drain_cases (min s.rxQueue.count maxLength.toNat) dst { s with rxIrqEnable := false }
  · exact ⟨c, r, m, .inl (by simp [readEffect, h])⟩
  · exact ⟨c, r, m, .inr ⟨i, hi, hj, hf, by simp [readEffect, h]; rfl⟩⟩

/-- The critical section when HostMem admits every write (43_drain.md R161). -/
theorem readEffect_admitted {dst maxLength : Word} {s : State} (hq : s.rxQueue.Inv)
    (h : ∀ i < min s.rxQueue.count maxLength.toNat, s.admits (bufferAddr dst i) .write = true) :
    readEffect dst maxLength s =
      ({ s with
          rxQueue := popN (min s.rxQueue.count maxLength.toNat) s.rxQueue
          mem := writeBytes s.mem dst (s.rxQueue.contents.take (min s.rxQueue.count maxLength.toNat))
          rxIrqEnable := true } : State).respond .success (BitVec.ofNat 32 (min s.rxQueue.count maxLength.toNat)) := by
  simp only [readEffect]
  rw [drain_admitted (by exact hq) (by exact Nat.min_le_left _ _) (by exact h)]
  rfl

/-- The critical section when the write of byte k is the first HostMem does not admit (43_drain.md R164). -/
theorem readEffect_faulted {dst maxLength : Word} {s : State} {k : Nat} (hq : s.rxQueue.Inv)
    (hk : k < min s.rxQueue.count maxLength.toNat)
    (h : ∀ i < k, s.admits (bufferAddr dst i) .write = true) (hf : s.admits (bufferAddr dst k) .write = false) :
    readEffect dst maxLength s =
      ({ s with
          rxQueue := popN (k + 1) s.rxQueue
          mem := writeBytes s.mem dst (s.rxQueue.contents.take k) } : State).raiseHostBusFault (bufferAddr dst k) := by
  simp only [readEffect]
  rw [drain_faulted (by exact hq) (by exact Nat.min_le_left _ _) hk (by exact h) (by exact hf)]
  rfl

/-! ### Receive events -/

/-- A receive event changes the last error, and the queue or the drop count or neither. -/
theorem receiveEffect_cases (status : BitVec 10) (data : Byte) (s : State) :
    ((classify status).isLineLevel = true ∧ receiveEffect status data s = { s with lastError := classify status }) ∨
    ((classify status).isLineLevel = false ∧ s.rxQueue.count ≠ s.rxQueue.capacity ∧
      receiveEffect status data s =
        { s with lastError := classify status, rxQueue := (s.rxQueue.tryPush data).1 }) ∨
    ((classify status).isLineLevel = false ∧ s.rxQueue.count = s.rxQueue.capacity ∧
      receiveEffect status data s = { s with lastError := classify status, dropped := satInc s.dropped }) := by
  cases hl : (classify status).isLineLevel with
  | true => exact .inl ⟨rfl, by simp [receiveEffect, hl]⟩
  | false =>
    by_cases hc : s.rxQueue.count = s.rxQueue.capacity
    · exact .inr (.inr ⟨rfl, hc, by simp [receiveEffect, hl, pushOrDrop, tryPush_full data hc]⟩)
    · exact .inr (.inl ⟨rfl, hc, by simp [receiveEffect, hl, pushOrDrop, tryPush_not_full data hc]⟩)

/-- A classification is always a legal last error (10_state.md R26). -/
theorem classify_eq (status : BitVec 10) :
    classify status = .success ∨ classify status = .overrunError ∨ (classify status).isLineLevel = true := by
  unfold classify
  (repeat' split) <;> simp [ResultCode.isLineLevel]

/-! ### Transmit steps -/

/-- What a transmit step can do: nothing (not enabled); end the send, with or without a byte; send a byte and advance the
cursor; or stop the block at an unadmitted read. -/
inductive TransmitCase (s : State) : State → Prop where
  | held {t : State} : t = s → TransmitCase s t
  | ended {t : State} : s.faulted = false → s.send ≠ .idle → t = finishSend s → TransmitCase s t
  | endedWithByte {t : State} (c : Byte) : s.faulted = false → s.send ≠ .idle → s.txReady = true →
      t = finishSend (s.emit (.writeData c)) → TransmitCase s t
  | advancedString {t : State} (a r : Word) (c : Byte) : s.faulted = false → s.send = .busy .string a r →
      s.txReady = true → t = { s.emit (.writeData c) with send := .busy .string (a + 1) r } → TransmitCase s t
  | advancedArray {t : State} (a r : Word) (c : Byte) : s.faulted = false → s.send = .busy .array a r →
      s.txReady = true → r - 1 ≠ 0 →
      t = { s.emit (.writeData c) with send := .busy .array (a + 1) (r - 1) } → TransmitCase s t
  | stopped {t : State} (k : SendKind) (a r : Word) : s.faulted = false → s.send = .busy k a r → k ≠ .byte →
      s.admits a .read = false → t = s.raiseHostBusFault a → TransmitCase s t

theorem transmitStep_cases (s : State) : TransmitCase s (transmitStep s) := by
  unfold transmitStep
  split
  · exact .held rfl
  · have hf : s.faulted = false := by simpa using ‹¬s.faulted = true›
    split
    · exact .held rfl
    · rename_i hs
      unfold transmitByte
      split
      · exact .endedWithByte _ hf (by simp [hs]) ‹_› rfl
      · exact .held rfl
    · rename_i hs
      unfold transmitString
      split
      · exact .stopped _ _ _ hf hs (by simp) (memRead_eq_none.1 ‹_›) rfl
      · split
        · exact .ended hf (by simp [hs]) rfl
        · split
          · exact .advancedString _ _ _ hf hs ‹_› rfl
          · exact .held rfl
    · rename_i hs
      unfold transmitArray
      split
      · exact .ended hf (by simp [hs]) rfl
      · split
        · exact .stopped _ _ _ hf hs (by simp) (memRead_eq_none.1 ‹_›) rfl
        · split
          · dsimp only
            split
            · exact .endedWithByte _ hf (by simp [hs]) ‹_› rfl
            · exact .advancedArray _ _ _ hf hs ‹_› ‹_› rfl
          · exact .held rfl

/-! ### exec -/

/-- What a command can do: be held; answer, and change nothing else; open; close; drain; or start a send. -/
inductive CommandCase (i : Instr) (s : State) : State → Prop where
  | held {t : State} : s.ready = false → t = s → CommandCase i s t
  | answered {t : State} (r : ResultCode) (v : Word) : s.ready = true →
      r = .success ∨ (r = .invalidArgument ∨ r = .notOpen ∨ r = .alreadyOpen) ∧ v = 0 →
      t = s.takeCommand.respond r v → CommandCase i s t
  | opens {t : State} (baud b : Word) : i = .openLine baud b → s.ready = true → s.state = .closed →
      t = openEffect baud s.takeCommand → CommandCase i s t
  | closes {t : State} (a b : Word) : i = .close a b → s.ready = true → s.state = .opened →
      t = ({ s.takeCommand with rxIrqEnable := false, state := .closed } : State).respond .success 0 →
      CommandCase i s t
  | drains {t : State} (dst n : Word) : i = .read dst n → s.ready = true → s.state = .opened → n ≠ 0 → dst ≠ 0 →
      t = readEffect dst n s.takeCommand → CommandCase i s t
  | sends {t : State} (k : SendKind) (a r : Word) : s.ready = true → s.state = .opened →
      (SendEngine.busy k a r).legal = true → t = { s.takeCommand with send := .busy k a r } → CommandCase i s t

/-- Every command is an effect at the command port, and nothing beside it. -/
theorem exec_onCommandPort {i : Instr} (hp : (encode i).port = .command) :
    ∃ effect, ∀ s, exec i s = onCommandPort s effect := by
  cases i with
  | openLine baud b => exact ⟨_, fun s => by rw [exec, execOpenLine]⟩
  | close a b => exact ⟨_, fun s => by rw [exec, execClose]⟩
  | read dst n => exact ⟨_, fun s => by rw [exec, execRead]⟩
  | sendByte v hi b => exact ⟨_, fun s => by rw [exec, execSendByte]⟩
  | sendString src b => exact ⟨_, fun s => by rw [exec, execSendString]⟩
  | sendArray src n => exact ⟨_, fun s => by rw [exec, execSendArray]⟩
  | getLastError a b => exact ⟨_, fun s => by rw [exec, execGetLastError]⟩
  | getDropped a b => exact ⟨_, fun s => by rw [exec, execGetDropped]⟩
  | getStatus a b => exact ⟨_, fun s => by rw [exec, execGetStatus]⟩
  | getCount a b => exact ⟨_, fun s => by rw [exec, execGetCount]⟩
  | reserved00 a b => exact ⟨_, fun s => by rw [exec, execReserved00]⟩
  | reserved0BFF op a b => exact ⟨_, fun s => by rw [exec, execReserved0BFF]⟩
  | rxEvent status d => cases hp
  | fifoIdle x => cases hp
  | fifoTryPush x => cases hp
  | fifoTryPop x => cases hp
  | fifoInit x => cases hp

theorem exec_command_cases {i : Instr} {s t : State} (hp : (encode i).port = .command) (h : exec i s = .next t) :
    CommandCase i s t := by
  by_cases hr : s.ready = true
  case neg =>
    obtain ⟨f, hf⟩ := exec_onCommandPort hp
    rw [hf, onCommandPort_held (Bool.not_eq_true _ ▸ hr)] at h
    exact .held (Bool.not_eq_true _ ▸ hr) (by cases h; rfl)
  cases i with
  | openLine baud b =>
    simp only [exec, execOpenLine, onCommandPort_ready hr] at h
    cases h
    split
    · exact .answered _ _ hr (.inr ⟨.inr (.inr rfl), rfl⟩) rfl
    · exact .opens baud b rfl hr ‹_› rfl
  | close a b =>
    simp only [exec, execClose, onCommandPort_ready hr] at h
    cases h
    split
    · exact .answered _ _ hr (.inr ⟨.inr (.inl rfl), rfl⟩) rfl
    · exact .closes a b rfl hr ‹_› rfl
  | read dst n =>
    simp only [exec, execRead, onCommandPort_ready hr, readCheck, isNull] at h
    cases h
    cases hs : s.state with
    | closed => exact .answered .notOpen 0 hr (.inr ⟨.inr (.inl rfl), rfl⟩) (by simp [hs])
    | opened =>
      by_cases hz : n = 0
      · exact .answered .success 0 hr (.inl rfl) (by simp [hs, hz])
      · by_cases hn : dst = 0
        · exact .answered .invalidArgument 0 hr (.inr ⟨.inl rfl, rfl⟩)
            (by simp [hs, hn, show ¬n = 0#32 from hz])
        · exact .drains dst n rfl hr hs hz hn
            (by simp [hs, show ¬dst = 0#32 from hn, show ¬n = 0#32 from hz])
  | sendByte v hi b =>
    simp only [exec, execSendByte, onCommandPort_ready hr, sendByteCheck] at h
    cases h
    cases hs : s.state with
    | closed => exact .answered .notOpen 0 hr (.inr ⟨.inr (.inl rfl), rfl⟩) (by simp [hs, startSend])
    | opened =>
      refine .sends .byte (v.zeroExtend 32) 1 hr hs ?_ (by simp [hs, startSend])
      have := v.isLt
      simp [SendEngine.legal]; omega
  | sendString src b =>
    simp only [exec, execSendString, onCommandPort_ready hr, sendStringCheck, isNull] at h
    cases h
    cases hs : s.state with
    | closed => exact .answered .notOpen 0 hr (.inr ⟨.inr (.inl rfl), rfl⟩) (by simp [hs, startSend])
    | opened =>
      by_cases hn : src = 0
      · exact .answered .invalidArgument 0 hr (.inr ⟨.inl rfl, rfl⟩) (by simp [hs, startSend, hn])
      · exact .sends .string src 0 hr hs rfl (by simp [hs, startSend, show ¬src = 0#32 from hn])
  | sendArray src n =>
    simp only [exec, execSendArray, onCommandPort_ready hr, sendArrayCheck, isNull] at h
    cases h
    cases hs : s.state with
    | closed => exact .answered .notOpen 0 hr (.inr ⟨.inr (.inl rfl), rfl⟩) (by simp [hs, startSend])
    | opened =>
      by_cases hn : src = 0
      · exact .answered .invalidArgument 0 hr (.inr ⟨.inl rfl, rfl⟩) (by simp [hs, startSend, hn])
      · by_cases hz : n = 0
        · exact .answered .invalidArgument 0 hr (.inr ⟨.inl rfl, rfl⟩)
            (by simp [hs, startSend, hz])
        · exact .sends .array src n hr hs (by simpa [SendEngine.legal] using hz)
            (by simp [hs, startSend, show ¬src = 0#32 from hn, show ¬n = 0#32 from hz])
  | getLastError a b =>
    simp only [exec, execGetLastError, onCommandPort_ready hr] at h
    cases h; exact .answered _ _ hr (.inl rfl) rfl
  | getDropped a b =>
    simp only [exec, execGetDropped, onCommandPort_ready hr] at h
    cases h; exact .answered _ _ hr (.inl rfl) rfl
  | getStatus a b =>
    simp only [exec, execGetStatus, onCommandPort_ready hr] at h
    cases h; exact .answered _ _ hr (.inl rfl) rfl
  | getCount a b =>
    simp only [exec, execGetCount, onCommandPort_ready hr] at h
    cases h; exact .answered _ _ hr (.inl rfl) rfl
  | reserved00 a b =>
    simp only [exec, execReserved00, onCommandPort_ready hr] at h
    cases h; exact .answered _ _ hr (.inr ⟨.inl rfl, rfl⟩) rfl
  | reserved0BFF op a b =>
    simp only [exec, execReserved0BFF, onCommandPort_ready hr] at h
    cases h; exact .answered _ _ hr (.inr ⟨.inl rfl, rfl⟩) rfl
  | rxEvent status d => cases hp
  | fifoIdle x => cases hp
  | fifoTryPush x => cases hp
  | fifoTryPop x => cases hp
  | fifoInit x => cases hp

/-- What a receive event can do: nothing, where it is not enabled; or the handler's effect. -/
theorem exec_event_cases {status : BitVec 10} {d : Byte} {s t : State} (h : exec (.rxEvent status d) s = .next t) :
    t = s ∨ s.rxIrqEnable = true ∧ s.faulted = false ∧ t = receiveEffect status d { s with rxPort := none } := by
  simp only [exec, execRxEvent] at h
  split at h
  · rename_i he; simp at he; cases h; exact .inr ⟨he.1, he.2, rfl⟩
  · cases h; exact .inl rfl

/-- A FIFO row is one request at the engine's port. -/
theorem exec_fifo {i : Instr} (hp : (encode i).port = .fifo) (s : State) : ∃ r, exec i s = onFifoPort r s := by
  cases i with
  | openLine baud b => cases hp
  | close a b => cases hp
  | read dst n => cases hp
  | sendByte v hi b => cases hp
  | sendString src b => cases hp
  | sendArray src n => cases hp
  | getLastError a b => cases hp
  | getDropped a b => cases hp
  | getStatus a b => cases hp
  | getCount a b => cases hp
  | reserved00 a b => cases hp
  | reserved0BFF op a b => cases hp
  | rxEvent status d => cases hp
  | fifoIdle x => exact ⟨_, by rw [exec, execFifoIdle]⟩
  | fifoTryPush x => exact ⟨_, by rw [exec, execFifoTryPush]⟩
  | fifoTryPop x => exact ⟨_, by rw [exec, execFifoTryPop]⟩
  | fifoInit x => exact ⟨_, by rw [exec, execFifoInit]⟩

/-- A request at the FIFO engine's port takes itself off the port and changes at most the instance of its own, the reply
and the count of draws. -/
theorem onFifoPort_next {r : FifoRequest 8} {s t : State} (h : onFifoPort r s = .next t) :
    t = { s with fifoPort := none } ∨
    ∃ reply, t =
      { s with
        fifoPort := none, fifoEngine := (s.fifoEngine.serve r (Config.freeData 8 s.draws)).1, fifoReply := some reply
        draws := s.draws + 1 } := by
  rw [onFifoPort] at h
  split at h
  · cases h; exact .inl rfl
  · cases h; exact .inr ⟨_, rfl⟩

/-- Serving a request keeps the capacity (10_state.md R21). -/
theorem serve_capacity {w : Nat} (r : FifoRequest w) (d : BitVec w) (q : Fifo w) :
    (q.serve r d).1.capacity = q.capacity := by
  unfold Fifo.serve
  split
  · rfl
  · show (q.tryPush r.fwdata).1.capacity = _
    by_cases h : q.count = q.capacity
    · rw [tryPush_full _ h]
    · rw [tryPush_not_full _ h]
  · show (q.tryPop d).1.capacity = _
    by_cases h : q.count = 0
    · rw [tryPop_empty _ h]
    · rw [tryPop_not_empty _ h]
  · rfl

/-! ### The two instructions with the longest meanings, where they run their effect -/

/-- An enabled receive event runs the handler (42_receive.md R140, R142). -/
theorem exec_rxEvent_enabled {status : BitVec 10} {d : Byte} {s : State} (hi : s.rxIrqEnable = true)
    (hf : s.faulted = false) :
    exec (.rxEvent status d) s = .next (receiveEffect status d { s with rxPort := none }) := by
  simp only [exec, execRxEvent]
  rw [if_pos (by simp [hi, hf])]

/-- A READ that passes its checks runs its critical section (43_drain.md R160, R161). -/
theorem exec_read_drains {dst n : Word} {s : State} (hs : s.send = .idle) (hf : s.faulted = false)
    (ho : s.state = .opened) (hn : n ≠ 0) (hd : dst ≠ 0) :
    exec (.read dst n) s = .next (readEffect dst n s.takeCommand) := by
  simp only [exec, execRead, onCommandPort, (State.ready_iff s).2 ⟨hs, hf⟩, readCheck, isNull, State.takeCommand, ho]
  simp [show ¬n = 0#32 from hn, show ¬dst = 0#32 from hd]

end Sys2Proof.Machine
end

