-- ==== Sys2Proof/Laws/PerInstr.lean ====
section
/-!
SUPPORT. What is said of every instruction, constructor by constructor: family FormatOf, the port and the opcode bits of
an instruction's word (30_encoding.md R70, R79).
-/

namespace Sys2Proof.Laws.FormatOf

/-- The opcode a command's word carries; the port alone where the port has no opcode (30_encoding.md R79). -/
def opcode : Instr → Option Byte
  | .openLine _ _ => some 0x01
  | .close _ _ => some 0x02
  | .read _ _ => some 0x03
  | .sendByte _ _ _ => some 0x04
  | .sendString _ _ => some 0x05
  | .sendArray _ _ => some 0x06
  | .getLastError _ _ => some 0x07
  | .getDropped _ _ => some 0x08
  | .getStatus _ _ => some 0x09
  | .getCount _ _ => some 0x0A
  | .reserved00 _ _ => some 0x00
  | .reserved0BFF op _ _ => some op
  | .rxEvent _ _ => none
  | .fifoIdle _ => none
  | .fifoTryPush _ => none
  | .fifoTryPop _ => none
  | .fifoInit _ => none

/-- An instruction has an opcode exactly when its word stands at the command port, and that word's low byte is it. -/
def Statement (i : Instr) : Prop :=
  (∀ w, encode i = .command w → opcode i = some (cmdOp w)) ∧ ((encode i).port = .command ↔ (opcode i).isSome = true)

theorem openLine (baud ignB : Word) : Statement (.openLine baud ignB) := by
  simp [Statement, encode, opcode, PortWord.port]
theorem close (ignA ignB : Word) : Statement (.close ignA ignB) := by
  simp [Statement, encode, opcode, PortWord.port]
theorem read (dst maxLength : Word) : Statement (.read dst maxLength) := by
  simp [Statement, encode, opcode, PortWord.port]
theorem sendByte (byte : Byte) (ignAHigh : BitVec 24) (ignB : Word) : Statement (.sendByte byte ignAHigh ignB) := by
  simp [Statement, encode, opcode, PortWord.port]
theorem sendString (src ignB : Word) : Statement (.sendString src ignB) := by
  simp [Statement, encode, opcode, PortWord.port]
theorem sendArray (src length : Word) : Statement (.sendArray src length) := by
  simp [Statement, encode, opcode, PortWord.port]
theorem getLastError (ignA ignB : Word) : Statement (.getLastError ignA ignB) := by
  simp [Statement, encode, opcode, PortWord.port]
theorem getDropped (ignA ignB : Word) : Statement (.getDropped ignA ignB) := by
  simp [Statement, encode, opcode, PortWord.port]
theorem getStatus (ignA ignB : Word) : Statement (.getStatus ignA ignB) := by
  simp [Statement, encode, opcode, PortWord.port]
theorem getCount (ignA ignB : Word) : Statement (.getCount ignA ignB) := by
  simp [Statement, encode, opcode, PortWord.port]
theorem reserved00 (ignA ignB : Word) : Statement (.reserved00 ignA ignB) := by
  simp [Statement, encode, opcode, PortWord.port]
theorem reserved0BFF (op : Byte) (ignA ignB : Word) : Statement (.reserved0BFF op ignA ignB) := by
  simp [Statement, encode, opcode, PortWord.port]
theorem rxEvent (status : BitVec 10) (data : Byte) : Statement (.rxEvent status data) := by
  simp [Statement, encode, opcode, PortWord.port]
theorem fifoIdle (ignData : Byte) : Statement (.fifoIdle ignData) := by
  simp [Statement, encode, opcode, PortWord.port]
theorem fifoTryPush (value : Byte) : Statement (.fifoTryPush value) := by
  simp [Statement, encode, opcode, PortWord.port]
theorem fifoTryPop (ignData : Byte) : Statement (.fifoTryPop ignData) := by
  simp [Statement, encode, opcode, PortWord.port]
theorem fifoInit (ignData : Byte) : Statement (.fifoInit ignData) := by
  simp [Statement, encode, opcode, PortWord.port]

end Sys2Proof.Laws.FormatOf
end

