-- ==== Sys2Proof/Laws/Step.lean ====
section
/-!
SUPPORT. What a step can do, said once: which move it takes, and the cases of that move. Proofs about all steps split
these cases.
-/

namespace Sys2Proof.Machine

/-- What a step that answers a next state can do. `u` is the state whose list of moves the taken move has left. -/
inductive StepCase (s : State) : State → Prop where
  | idle {t : State} : s.moves = [] → t = s → StepCase s t
  | issue {t : State} (w : BitVec 72) (rest : List Move) : s.moves = .issueCommand w :: rest →
      t = issueCommand w { s with moves := rest } → StepCase s t
  | nothingHeld {t : State} (m : Move) (rest : List Move) : s.moves = m :: rest → m ≠ .powerReset →
      t = { s with moves := rest } → StepCase s t
  | command {t : State} (w : BitVec 72) (rest : List Move) : s.moves = .acceptCommand :: rest → s.cmdPort = some w →
      CommandCase (decode (.command w)) { s with moves := rest } t → StepCase s t
  | offer {t : State} (w : BitVec 18) (rest : List Move) : s.moves = .offerEvent w :: rest →
      t = { s with moves := rest, rxPort := some w } → StepCase s t
  | event {t : State} (w : BitVec 18) (status : BitVec 10) (d : Byte) (rest : List Move) :
      s.moves = .takeEvent :: rest → s.rxPort = some w → decode (.event w) = .rxEvent status d →
      s.rxIrqEnable = true → s.faulted = false →
      t = receiveEffect status d { s with moves := rest, rxPort := none } → StepCase s t
  | txReady {t : State} (b : Bool) (rest : List Move) : s.moves = .setTxReady b :: rest →
      t = { s with moves := rest, txReady := b } → StepCase s t
  | transmit {t : State} (rest : List Move) : s.moves = .transmit :: rest →
      TransmitCase { s with moves := rest } t → StepCase s t
  | request {t : State} (w : BitVec 10) (rest : List Move) : s.moves = .requestFifo w :: rest →
      t = { s with moves := rest, fifoPort := some w } → StepCase s t
  | fifo {t : State} (r : FifoRequest 8) (rest : List Move) : s.moves = .serveFifo :: rest →
      onFifoPort r { s with moves := rest } = .next t → StepCase s t
  | hostWrite {t : State} (a : Word) (v : Byte) (rest : List Move) : s.moves = .hostWrite a v :: rest →
      s.cmdPort = none → s.send = .idle ∨ s.faulted = true →
      t = ({ s with moves := rest } : State).setHostByte a v → StepCase s t
  | reset {t : State} (rest : List Move) : s.moves = .powerReset :: rest →
      t = ({ s with moves := rest } : State).powerReset → StepCase s t

/-- A word decodes to an instruction of its own port (30_encoding.md R70). -/
@[simp] theorem port_fifo (w : BitVec 10) : (encode (decode (.fifo w))).port = .fifo := by
  simp only [decode, decodeFifo]
  split <;> rfl

@[simp] theorem port_command (w : BitVec 72) : (encode (decode (.command w))).port = .command := by
  simp only [decode, decodeCommand]
  split <;> rfl

theorem step_cases {s t : State} (h : step s = .next t) : StepCase s t := by
  unfold step nextMove at h
  split at h
  · rename_i hm
    split at h
    · cases h
    · cases h; exact .idle hm rfl
  · rename_i m rest hm
    cases m with
    | issueCommand w => cases h; exact .issue w rest hm rfl
    | acceptCommand =>
      simp only [runMove, acceptCommand] at h
      split at h
      · cases h; exact .nothingHeld _ rest hm (by simp) rfl
      · exact .command _ rest hm ‹_› (exec_command_cases (port_command _) h)
    | offerEvent w => cases h; exact .offer w rest hm rfl
    | takeEvent =>
      simp only [runMove, takeEvent] at h
      split at h
      · cases h; exact .nothingHeld _ rest hm (by simp) rfl
      · rcases exec_event_cases h with rfl | ⟨h1, h2, rfl⟩
        · exact .nothingHeld _ rest hm (by simp) rfl
        · exact .event _ _ _ rest hm ‹_› rfl h1 h2 rfl
    | setTxReady b => cases h; exact .txReady b rest hm rfl
    | transmit => cases h; exact .transmit rest hm (transmitStep_cases _)
    | requestFifo w => cases h; exact .request w rest hm rfl
    | serveFifo =>
      simp only [runMove, serveFifo] at h
      split at h
      · cases h; exact .nothingHeld _ rest hm (by simp) rfl
      · obtain ⟨r, hr⟩ := exec_fifo (port_fifo _) { s with moves := rest }
        rw [hr] at h
        exact .fifo r rest hm h
    | hostWrite a v =>
      cases h
      by_cases hw : s.cmdPort = none ∧ (s.send = .idle ∨ s.faulted = true)
      · exact .hostWrite a v rest hm hw.1 hw.2 (by rw [hostWrite, if_pos (by exact hw)])
      · exact .nothingHeld _ rest hm (by simp) (by rw [hostWrite, if_neg (by exact hw)])
    | powerReset => cases h; exact .reset rest hm rfl

end Sys2Proof.Machine
end

