-- ==== Sys2Proof/Laws/Shape.lean ====
section
/-!
SUPPORT. What a step can do, with every next state written out as one record update of the state before it. Proofs about
all steps split these cases; `readEffect_shape` splits the one case that is left folded.
-/

namespace Sys2Proof.Machine

/-- Every next state of `step`, as a record update. -/
inductive StepShape (s : State) : State → Prop where
  | idle : s.moves = [] → StepShape s s
  | issued (w : BitVec 72) (rest : List Move) : s.moves = .issueCommand w :: rest → s.cmdPort = none →
      StepShape s { s with moves := rest, cmdPort := some w, awaiting := true }
  | nothing (m : Move) (rest : List Move) : s.moves = m :: rest → m ≠ .powerReset →
      StepShape s { s with moves := rest }
  | offered (w : BitVec 18) (rest : List Move) : s.moves = .offerEvent w :: rest →
      StepShape s { s with moves := rest, rxPort := some w }
  | txReadySet (b : Bool) (rest : List Move) : s.moves = .setTxReady b :: rest →
      StepShape s { s with moves := rest, txReady := b }
  | requested (w : BitVec 10) (rest : List Move) : s.moves = .requestFifo w :: rest →
      StepShape s { s with moves := rest, fifoPort := some w }
  | hostWrote (a : Word) (v : Byte) (rest : List Move) : s.moves = .hostWrite a v :: rest → s.cmdPort = none →
      s.send = .idle ∨ s.faulted = true → StepShape s { s with moves := rest, mem := memInsert s.mem a.toNat v }
  | reset (rest : List Move) : s.moves = .powerReset :: rest →
      StepShape s
        { s with
          moves := rest, state := .closed, rxIrqEnable := false, rxQueue := s.rxQueue.init, lastError := .success
          dropped := 0, send := .idle, faulted := false, faultAddr := none }
  | ended (rest : List Move) : s.moves = .transmit :: rest → s.faulted = false → s.send ≠ .idle →
      StepShape s
        { s with
          moves := rest, send := .idle, awaiting := s.cmdPort.isSome
          responses := s.responses ++ [responseWord .success 0] }
  | endedWithByte (c : Byte) (rest : List Move) : s.moves = .transmit :: rest → s.faulted = false → s.send ≠ .idle →
      s.txReady = true →
      StepShape s
        { s with
          moves := rest, trace := s.trace ++ [.writeData c], send := .idle, awaiting := s.cmdPort.isSome
          responses := s.responses ++ [responseWord .success 0] }
  | advancedString (c : Byte) (a r : Word) (rest : List Move) : s.moves = .transmit :: rest → s.faulted = false →
      s.send = .busy .string a r → s.txReady = true →
      StepShape s { s with moves := rest, trace := s.trace ++ [.writeData c], send := .busy .string (a + 1) r }
  | advancedArray (c : Byte) (a r : Word) (rest : List Move) : s.moves = .transmit :: rest → s.faulted = false →
      s.send = .busy .array a r → s.txReady = true → r - 1 ≠ 0 →
      StepShape s { s with moves := rest, trace := s.trace ++ [.writeData c], send := .busy .array (a + 1) (r - 1) }
  | stopped (k : SendKind) (a r : Word) (rest : List Move) : s.moves = .transmit :: rest → s.faulted = false →
      s.send = .busy k a r → k ≠ .byte → s.admits a .read = false →
      StepShape s { s with moves := rest, faulted := true, rxIrqEnable := false, faultAddr := some a }
  | answered (w : BitVec 72) (r : ResultCode) (v : Word) (rest : List Move) : s.moves = .acceptCommand :: rest →
      s.cmdPort = some w → s.send = .idle → s.faulted = false →
      r = .success ∨ (r = .invalidArgument ∨ r = .notOpen ∨ r = .alreadyOpen) ∧ v = 0 →
      StepShape s
        { s with
          moves := rest, cmdPort := none, awaiting := false, responses := s.responses ++ [responseWord r v] }
  | opened (w : BitVec 72) (baud b : Word) (rest : List Move) : s.moves = .acceptCommand :: rest →
      s.cmdPort = some w → decode (.command w) = .openLine baud b → s.send = .idle → s.faulted = false →
      s.state = .closed →
      StepShape s
        { s with
          moves := rest, cmdPort := none, trace := s.trace ++ [.configureLine baud], rxQueue := s.rxQueue.init
          lastError := .success, dropped := 0, rxIrqEnable := true, state := .opened, awaiting := false
          responses := s.responses ++ [responseWord .success 0] }
  | closed (w : BitVec 72) (a b : Word) (rest : List Move) : s.moves = .acceptCommand :: rest →
      s.cmdPort = some w → decode (.command w) = .close a b → s.send = .idle → s.faulted = false →
      s.state = .opened →
      StepShape s
        { s with
          moves := rest, cmdPort := none, rxIrqEnable := false, state := .closed, awaiting := false
          responses := s.responses ++ [responseWord .success 0] }
  | drained (w : BitVec 72) (dst n : Word) (rest : List Move) : s.moves = .acceptCommand :: rest →
      s.cmdPort = some w → decode (.command w) = .read dst n → s.send = .idle → s.faulted = false →
      s.state = .opened → StepShape s (readEffect dst n { s with moves := rest, cmdPort := none })
  | sendStarted (w : BitVec 72) (k : SendKind) (a r : Word) (rest : List Move) : s.moves = .acceptCommand :: rest →
      s.cmdPort = some w → s.send = .idle → s.faulted = false → s.state = .opened →
      (SendEngine.busy k a r).legal = true →
      StepShape s { s with moves := rest, cmdPort := none, send := .busy k a r }
  | discarded (w : BitVec 18) (status : BitVec 10) (d : Byte) (rest : List Move) : s.moves = .takeEvent :: rest →
      s.rxPort = some w → decode (.event w) = .rxEvent status d → s.rxIrqEnable = true → s.faulted = false →
      (classify status).isLineLevel = true →
      StepShape s { s with moves := rest, rxPort := none, lastError := classify status }
  | pushed (w : BitVec 18) (status : BitVec 10) (d : Byte) (rest : List Move) : s.moves = .takeEvent :: rest →
      s.rxPort = some w → decode (.event w) = .rxEvent status d → s.rxIrqEnable = true → s.faulted = false →
      (classify status).isLineLevel = false → s.rxQueue.count ≠ s.rxQueue.capacity →
      StepShape s
        { s with moves := rest, rxPort := none, lastError := classify status, rxQueue := (s.rxQueue.tryPush d).1 }
  | dropped (w : BitVec 18) (status : BitVec 10) (d : Byte) (rest : List Move) : s.moves = .takeEvent :: rest →
      s.rxPort = some w → decode (.event w) = .rxEvent status d → s.rxIrqEnable = true → s.faulted = false →
      (classify status).isLineLevel = false → s.rxQueue.count = s.rxQueue.capacity →
      StepShape s { s with moves := rest, rxPort := none, lastError := classify status, dropped := satInc s.dropped }
  | fifoIdle (rest : List Move) : s.moves = .serveFifo :: rest → StepShape s { s with moves := rest, fifoPort := none }
  | fifoServed (r : FifoRequest 8) (reply : FifoReply 8) (rest : List Move) : s.moves = .serveFifo :: rest →
      StepShape s
        { s with
          moves := rest, fifoPort := none, fifoReply := some reply, draws := s.draws + 1
          fifoEngine := (s.fifoEngine.serve r (Config.freeData 8 s.draws)).1 }

/-- Every step that answers a next state has one of the shapes. -/
theorem step_shape {s t : State} (h : step s = .next t) : StepShape s t := by
  cases step_cases h with
  | idle hm h => subst h; exact .idle hm
  | issue w rest hm h =>
    subst h
    unfold issueCommand
    split
    · exact .issued w rest hm ‹_›
    · exact .nothing _ rest hm (by simp)
  | nothingHeld m rest hm hr h => subst h; exact .nothing m rest hm hr
  | offer w rest hm h => subst h; exact .offered w rest hm
  | txReady b rest hm h => subst h; exact .txReadySet b rest hm
  | request w rest hm h => subst h; exact .requested w rest hm
  | hostWrite a v rest hm h1 h2 h => subst h; exact .hostWrote a v rest hm h1 h2
  | reset rest hm h => subst h; exact .reset rest hm
  | transmit rest hm hc =>
    cases hc with
    | held h => subst h; exact .nothing _ rest hm (by simp)
    | ended h1 h2 h => subst h; exact .ended rest hm h1 h2
    | endedWithByte c h1 h2 h3 h => subst h; exact .endedWithByte c rest hm h1 h2 h3
    | advancedString a r c h1 h2 h3 h => subst h; exact .advancedString c a r rest hm h1 h2 h3
    | advancedArray a r c h1 h2 h3 h4 h => subst h; exact .advancedArray c a r rest hm h1 h2 h3 h4
    | stopped k a r h1 h2 h3 h4 h => subst h; exact .stopped k a r rest hm h1 h2 h3 h4
  | command w rest hm hp hc =>
    cases hc with
    | held _ h => subst h; exact .nothing _ rest hm (by simp)
    | answered r v h1 h2 h =>
      subst h; rw [State.ready_iff] at h1
      exact .answered w r v rest hm hp h1.1 h1.2 h2
    | opens baud b hi h1 h2 h =>
      subst h; rw [State.ready_iff] at h1
      exact .opened w baud b rest hm hp hi h1.1 h1.2 h2
    | closes a b hi h1 h2 h =>
      subst h; rw [State.ready_iff] at h1
      exact .closed w a b rest hm hp hi h1.1 h1.2 h2
    | drains dst n hi h1 h2 _ _ h =>
      subst h; rw [State.ready_iff] at h1
      exact .drained w dst n rest hm hp hi h1.1 h1.2 h2
    | sends k a r h1 h2 h3 h =>
      subst h; rw [State.ready_iff] at h1
      exact .sendStarted w k a r rest hm hp h1.1 h1.2 h2 h3
  | event w status d rest hm hp hd h1 h2 h =>
    subst h
    rcases receiveEffect_cases status d ({ s with moves := rest, rxPort := none } : State) with
      ⟨h3, h⟩ | ⟨h3, h4, h⟩ | ⟨h3, h4, h⟩ <;> rw [h]
    · exact .discarded w status d rest hm hp hd h1 h2 h3
    · exact .pushed w status d rest hm hp hd h1 h2 h3 h4
    · exact .dropped w status d rest hm hp hd h1 h2 h3 h4
  | fifo r rest hm h =>
    rcases onFifoPort_next h with rfl | ⟨reply, rfl⟩
    · exact .fifoIdle rest hm
    · exact .fifoServed r reply rest hm

/-- The critical section of READ, written out: it answers, or the first unadmitted write stops the block. -/
theorem readEffect_shape (dst n : Word) (s : State) :
    ∃ c r m,
      readEffect dst n s =
          { s with
            rxQueue := { s.rxQueue with count := c, readIndex := r }, mem := m, rxIrqEnable := true
            awaiting := s.cmdPort.isSome
            responses := s.responses ++ [responseWord .success (BitVec.ofNat 32 (min s.rxQueue.count n.toNat))] } ∨
      ∃ i < min s.rxQueue.count n.toNat,
        (∀ j < i, s.admits (bufferAddr dst j) .write = true) ∧ s.admits (bufferAddr dst i) .write = false ∧
        readEffect dst n s =
          { s with
            rxQueue := { s.rxQueue with count := c, readIndex := r }, mem := m, faulted := true
            rxIrqEnable := false, faultAddr := some (bufferAddr dst i) } :=
  readEffect_cases dst n s

/-- A drain's writes are all admitted, or one of them is the first that is not. -/
theorem drain_admits_or (n : Nat) (dst : Word) (s : State) :
    (∀ i < n, s.admits (bufferAddr dst i) .write = true) ∨
    ∃ k < n, (∀ i < k, s.admits (bufferAddr dst i) .write = true) ∧ s.admits (bufferAddr dst k) .write = false := by
  by_cases h : ∀ i < n, s.admits (bufferAddr dst i) .write = true
  · exact .inl h
  · right
    push Not at h
    obtain ⟨h1, h2⟩ := Nat.find_spec h
    refine ⟨Nat.find h, h1, fun i hi => ?_, by simpa using h2⟩
    by_contra hc
    exact Nat.find_min h hi ⟨by omega, hc⟩

/-! ### Small facts the cases meet -/

/-- A push keeps the capacity. -/
@[simp] theorem tryPush_capacity {w : Nat} (v : BitVec w) (q : Fifo w) : (q.tryPush v).1.capacity = q.capacity :=
  serve_capacity { fop := 1, fwdata := v } 0 q

/-- A saturating increment that changes its value adds one. -/
theorem satInc_toNat_of_ne {v : Word} (h : satInc v ≠ v) : (satInc v).toNat = v.toNat + 1 := by
  unfold satInc at *
  split at h <;> rename_i hc
  · rw [if_pos hc]; have := v.isLt; bv_omega
  · simp at h

/-- The two fields of a response word, as arithmetic (30_encoding.md R74). -/
theorem responseWord_fields (r : ResultCode) (v : Word) :
    (responseWord r v).toNat % 16 = r.code.toNat ∧ (responseWord r v).toNat / 16 = v.toNat := by
  have : (responseWord r v).toNat = v.toNat <<< 4 ||| r.code.toNat := BitVec.toNat_append v r.code
  have hc := r.code.isLt
  rw [this, ← Nat.shiftLeft_add_eq_or_of_lt hc, Nat.shiftLeft_eq]
  omega

/-- A run takes one step at a time. -/
theorem run_succ {s t : State} (n : Nat) (h : step s = .next t) : core.run (n + 1) s = core.run n t := by
  have hgen (M : Host.Core) (s t : M.State) (h : M.step s = .next t) : M.run (n + 1) s = M.run n t := by
    simp [Host.Core.run, h]
  exact hgen core s t h

end Sys2Proof.Machine
end

