-- ==== Sys2Proof/Laws/Visible.lean ====
section
/-!
SUPPORT. Storage entries that hold no queued element are never observable (10_state.md R33, R36): each operation of the
FIFO engine, and the drain, does the same on two engines that differ only in such entries, and a transmit step reads no
FIFO engine at all.
-/

namespace Sys2Proof.Machine

variable {w : Nat} {q r : Fifo w}

theorem Fifo.SameVisible.init (h : q.SameVisible r) : q.init.SameVisible r.init :=
  ⟨h.capacity, rfl, rfl, rfl, by simp⟩

theorem Fifo.SameVisible.tryPush (h : q.SameVisible r) (hq : q.Inv) (hr : r.Inv) (v : BitVec w) :
    (q.tryPush v).1.SameVisible (r.tryPush v).1 ∧ (q.tryPush v).2 = (r.tryPush v).2 := by
  by_cases hc : q.count = q.capacity
  · rw [tryPush_full v hc, tryPush_full v (by rw [← h.count, ← h.capacity]; exact hc)]
    exact ⟨h, rfl⟩
  · have hc' : r.count ≠ r.capacity := by rw [← h.count, ← h.capacity]; exact hc
    have c1 := contents_tryPush hq v hc
    have c2 := contents_tryPush hr v hc'
    rw [tryPush_not_full v hc] at c1 ⊢
    rw [tryPush_not_full v hc'] at c2 ⊢
    exact ⟨⟨h.capacity, by simp [h.count], by simp [h.writeIndex, h.capacity], h.readIndex,
      by rw [c1, c2, h.contents]⟩, rfl⟩

theorem Fifo.SameVisible.tryPop (h : q.SameVisible r) (hq : q.Inv) (hr : r.Inv) (d : BitVec w) :
    (q.tryPop d).1.SameVisible (r.tryPop d).1 ∧ (q.tryPop d).2 = (r.tryPop d).2 := by
  by_cases hc : q.count = 0
  · rw [tryPop_empty d hc, tryPop_empty d (by rw [← h.count]; exact hc)]
    exact ⟨h, rfl⟩
  · have hc' : r.count ≠ 0 := by rw [← h.count]; exact hc
    have e := h.contents
    rw [contents_tryPop hq d hc, contents_tryPop hr d hc'] at e
    have e := List.cons.inj e
    rw [tryPop_not_empty d hc] at e ⊢
    rw [tryPop_not_empty d hc'] at e ⊢
    refine ⟨⟨h.capacity, by simp [h.count], h.writeIndex, by simp [h.readIndex, h.capacity], e.2⟩, ?_⟩
    simp only [FifoReply.mk.injEq, true_and]
    exact e.1

theorem Fifo.SameVisible.serve (h : q.SameVisible r) (hq : q.Inv) (hr : r.Inv) (req : FifoRequest w) (d : BitVec w) :
    (q.serve req d).1.SameVisible (r.serve req d).1 ∧ (q.serve req d).2 = (r.serve req d).2 := by
  unfold Fifo.serve
  split
  · exact ⟨h, rfl⟩
  · have := h.tryPush hq hr req.fwdata
    exact ⟨this.1, by simp [this.2]⟩
  · have := h.tryPop hq hr d
    exact ⟨this.1, by simp [this.2]⟩
  · exact ⟨h.init, rfl⟩

/-- The drain does the same on two states that differ only in such entries. -/
theorem drain_sameVisible (n : Nat) (a : Word) (s t : State) (hs : s.rxQueue.Inv) (ht : t.rxQueue.Inv)
    (h : s.SameVisible t) : (drain n a s).1.SameVisible (drain n a t).1 ∧ (drain n a s).2 = (drain n a t).2 := by
  induction n generalizing a s t with
  | zero => exact ⟨h, rfl⟩
  | succ n ih =>
    obtain ⟨hq, hv, he⟩ := h
    obtain ⟨p1, p2⟩ := hq.tryPop hs ht (Config.freeData 8 s.draws)
    have hd : s.draws = t.draws := by rw [he]
    have ham : ∀ k, s.admits a k = t.admits a k := by intro k; rw [he]; rfl
    cases ha : s.admits a .write with
    | true =>
      rw [drain_succ_admitted ha, drain_succ_admitted (by rw [← ham]; exact ha)]
      refine ih _ _ _ (hs.tryPop _) (ht.tryPop _) ⟨by rw [← hd]; exact p1, hv, ?_⟩
      rw [← hd, ← p2, he]
    | false =>
      rw [drain_succ_faulted ha, drain_succ_faulted (by rw [← ham]; exact ha)]
      refine ⟨⟨by rw [← hd]; exact p1, hv, ?_⟩, rfl⟩
      simp only [State.raiseHostBusFault]
      rw [he]

/-! ### A transmit step reads and writes neither FIFO engine -/

theorem transmitByte_queues (a : Word) (s : State) (q e : Fifo 8) :
    transmitByte a { s with rxQueue := q, fifoEngine := e } =
      { transmitByte a s with rxQueue := q, fifoEngine := e } := by
  unfold transmitByte
  show (if s.txReady = true then _ else _) = _
  split <;> rfl

theorem transmitString_queues (a r : Word) (s : State) (q e : Fifo 8) :
    transmitString a r { s with rxQueue := q, fifoEngine := e } =
      { transmitString a r s with rxQueue := q, fifoEngine := e } := by
  unfold transmitString
  rw [show ({ s with rxQueue := q, fifoEngine := e } : State).memRead a = s.memRead a from rfl]
  cases s.memRead a with
  | none => rfl
  | some c =>
    dsimp only
    split
    · rfl
    · split <;> rfl

theorem transmitArray_queues (a r : Word) (s : State) (q e : Fifo 8) :
    transmitArray a r { s with rxQueue := q, fifoEngine := e } =
      { transmitArray a r s with rxQueue := q, fifoEngine := e } := by
  unfold transmitArray
  rw [show ({ s with rxQueue := q, fifoEngine := e } : State).memRead a = s.memRead a from rfl]
  split
  · rfl
  · cases s.memRead a with
    | none => rfl
    | some c =>
      dsimp only
      split
      · split <;> rfl
      · rfl

/-- A transmit step does the same whatever the two FIFO engines hold, and leaves both as they are. -/
theorem transmitStep_queues (s : State) (q e : Fifo 8) :
    transmitStep { s with rxQueue := q, fifoEngine := e } =
      { transmitStep s with rxQueue := q, fifoEngine := e } := by
  unfold transmitStep
  dsimp only
  split
  · rfl
  · split
    · rfl
    · exact transmitByte_queues _ s q e
    · exact transmitString_queues _ _ s q e
    · exact transmitArray_queues _ _ s q e

@[simp] theorem transmitStep_rxQueue (s : State) : (transmitStep s).rxQueue = s.rxQueue := by
  have h := congrArg State.rxQueue (transmitStep_queues s s.rxQueue s.fifoEngine)
  exact h

@[simp] theorem transmitStep_fifoEngine (s : State) : (transmitStep s).fifoEngine = s.fifoEngine := by
  have h := congrArg State.fifoEngine (transmitStep_queues s s.rxQueue s.fifoEngine)
  exact h

end Sys2Proof.Machine
end

