-- ==== Sys2Proof/Tests/Slice0.lean ====
section
/-!
SUPPORT. Tests of single steps, expected results from 95_test_vectors.md (its row names stand in the comments) or by hand
from the formats of 30_encoding.md, and for every obligation with hypotheses a witness that meets them.
-/

namespace Sys2Proof.Tests

open Sys2Proof.Machine

/-! ### Helpers -/

/-- What a next state holds; nothing for a fault or a refusal. -/
def after {α : Type} (o : Host.Outcome State Fault Refusal) (f : State → α) : Option α :=
  match o with
  | .next t => some (f t)
  | .fault _ => none
  | .refused _ => none

/-- The whole address space, for both kinds of access. -/
def everywhere : List Region := [{ base := 0, size := 2 ^ 32, canRead := true, canWrite := true }]

/-- Right after power-up, capacity 4 (the vectors' start), the FIFO engine instance beside the block 4 too. -/
def fresh : State := State.powerUp 4 4 everywhere

/-- Open, queue empty. -/
def opened : State := { fresh with state := .opened, rxIrqEnable := true }

/-- A queue of capacity 4. -/
def queue (count writeIndex readIndex : Nat) (storage : List Byte) : Fifo 8 :=
  { capacity := 4, count := count, writeIndex := writeIndex, readIndex := readIndex, storage := storage }

/-- Open, queue [1, 2, 3]. -/
def holding : State := { opened with rxQueue := queue 3 3 0 [1, 2, 3, 0] }

/-- Open, queue full. -/
def filled : State := { opened with rxQueue := queue 4 0 0 [1, 2, 3, 4] }

/-- Open, a send busy, `tx_ready` 1. -/
def busy (e : SendEngine) : State := { opened with send := e, txReady := true, awaiting := true }

/-- Open, stopped by a HostBusFault. -/
def stopped : State := { opened with rxIrqEnable := false, faulted := true, faultAddr := some 0x1002 }

/-- Host memory "O", "K", 0x00 at 0x500. -/
def text : Memory := [(0x500, 0x4F), (0x501, 0x4B), (0x502, 0x00)]

/-- Writes admitted only to 0x1000 .. 0x1001 (D10). -/
def narrow : List Region := [{ base := 0x1000, size := 2, canRead := true, canWrite := true }]

/-- The invariant of an engine, as a check. -/
def fifoCheck {w : Nat} (q : Fifo w) : Bool :=
  decide (1 ≤ q.capacity) && decide (q.capacity ≤ 2 ^ 32 - 1) && decide (q.count ≤ q.capacity) &&
    decide (q.writeIndex < q.capacity) && decide (q.readIndex < q.capacity) &&
    decide (q.storage.length = q.capacity) && decide (q.writeIndex = (q.readIndex + q.count) % q.capacity)

theorem fifoInv_of_check {w : Nat} {q : Fifo w} (h : fifoCheck q = true) : q.Inv := by
  simp only [fifoCheck, Bool.and_eq_true, decide_eq_true_eq] at h
  obtain ⟨⟨⟨⟨⟨⟨h1, h2⟩, h3⟩, h4⟩, h5⟩, h6⟩, h7⟩ := h
  exact ⟨h1, h2, h3, h4, h5, h6, h7⟩

/-- The invariant of a state, as a check. -/
def invCheck (s : State) : Bool :=
  fifoCheck s.rxQueue && fifoCheck s.fifoEngine && s.lastError.legalLastError &&
    decide (s.rxIrqEnable = (decide (s.state = .opened) && !s.faulted)) && s.send.legal &&
    decide (s.send ≠ .idle → s.state = .opened) && s.mem.wf && decide (s.faultAddr.isSome = s.faulted) &&
    decide (s.cmdPort.isSome = true ∨ s.send ≠ .idle → s.awaiting = true)

theorem inv_of_check {s : State} (h : invCheck s = true) : s.Inv := by
  simp only [invCheck, Bool.and_eq_true, decide_eq_true_eq] at h
  obtain ⟨⟨⟨⟨⟨⟨⟨⟨h1, h2⟩, h3⟩, h4⟩, h5⟩, h6⟩, h7⟩, h8⟩, h9⟩ := h
  exact ⟨fifoInv_of_check h1, fifoInv_of_check h2, h3, h4, h5, h6, h7, h8, h9⟩

/-! ### Well-formedness -/

theorem test_wf_refuses_assigned_opcode : (Instr.reserved0BFF 0x0A 0 0).wf = false := by decide
theorem test_wf_accepts_lowest_reserved : (Instr.reserved0BFF 0x0B 0 0).wf = true := by decide
theorem test_elaborate_refuses_zero : elaborate 0 4 everywhere = .refused (.illegalCapacity 0) := rfl

/-! ### Decoding: one word for each row, written out by hand -/

theorem test_decode_open : decodeTableWord 72 0x000000000000258001 = some (.openLine 9600 0) := by decide
theorem test_decode_close : decodeTableWord 72 0x000000000000000002 = some (.close 0 0) := by decide
theorem test_decode_read : decodeTableWord 72 0x00000002FFFFFFFF03 = some (.read 0xFFFFFFFF 2) := by decide
theorem test_decode_send_byte : decodeTableWord 72 0x000000001234564104 = some (.sendByte 0x41 0x123456 0) := by decide
theorem test_decode_send_string : decodeTableWord 72 0x000000000000050005 = some (.sendString 0x500 0) := by decide
theorem test_decode_send_array : decodeTableWord 72 0x000000030000050006 = some (.sendArray 0x500 3) := by decide
theorem test_decode_get_last_error : decodeTableWord 72 0x07 = some (.getLastError 0 0) := by decide
theorem test_decode_get_dropped : decodeTableWord 72 0x08 = some (.getDropped 0 0) := by decide
theorem test_decode_get_status : decodeTableWord 72 0x09 = some (.getStatus 0 0) := by decide
theorem test_decode_get_count : decodeTableWord 72 0x0A = some (.getCount 0 0) := by decide
theorem test_decode_reserved_00 : decodeTableWord 72 0x00 = some (.reserved00 0 0) := by decide
theorem test_decode_reserved_ff :
    decodeTableWord 72 0xFFFFFFFFFFFFFFFFFF = some (.reserved0BFF 0xFF 0xFFFFFFFF 0xFFFFFFFF) := by decide
/-- `ev = {status, data}`: status 0x002 (FE), data 0x31. -/
theorem test_decode_rx_event : decodeTableWord 24 0b000000001000110001 = some (.rxEvent 0x002 0x31) := by decide
theorem test_decode_fifo_idle : decodeTableWord 16 0b0100010100 = some (.fifoIdle 0x45) := by decide
theorem test_decode_fifo_push : decodeTableWord 16 0b0100010101 = some (.fifoTryPush 0x45) := by decide
theorem test_decode_fifo_pop : decodeTableWord 8 0b10 = some (.fifoTryPop 0) := by decide
theorem test_decode_fifo_init : decodeTableWord 8 0b11 = some (.fifoInit 0) := by decide
theorem test_decode_refuses_long : decodeTableWord 80 0 = none := by decide
theorem test_decode_refuses_high_bits : decodeTableWord 24 0x40000 = none := by decide

/-! ### Lifecycle (L2.2) -/

/-- O3: Closed, count 2, lastError 0xA, dropped 3, OPEN 0. -/
theorem test_open_closed :
    after
      (step
        (({ fresh with rxQueue := queue 2 2 0 [1, 2, 0, 0], lastError := .overrunError, dropped := 3 } :
          State).withFetchWord 72 0x01))
      (fun t => ((t.state, t.rxIrqEnable, t.rxQueue), (t.lastError, t.dropped), (t.trace, t.responses))) =
    some
      ((.opened, true, queue 0 0 0 [1, 2, 0, 0]), (.success, 0), ([.configureLine 0], [0x000000000#36])) := by decide

/-- O6: Open, OPEN with b = 0xFFFFFFFF. -/
theorem test_open_opened :
    after (step (holding.withFetchWord 72 0xFFFFFFFF0000258001)) (fun t => (t.rxQueue, t.trace, t.responses)) =
    some (holding.rxQueue, [], [0x000000003#36]) := by decide

/-- O4. -/
theorem test_close_opened :
    after (step (holding.withFetchWord 72 0x02)) (fun t => (t.state, t.rxIrqEnable, t.rxQueue, t.responses)) =
    some (.closed, false, holding.rxQueue, [0x000000000#36]) := by decide

/-- O5. -/
theorem test_close_closed :
    after (step (fresh.withFetchWord 72 0x02)) (fun t => (t.state, t.responses)) =
    some (.closed, [0x000000002#36]) := by decide

/-! ### Receive events (L2.3) -/

/-- The classification of all 32 combinations of the flags, in the table's order (FE, PE, LBD, NE, ORE). -/
theorem test_classification_table :
    [0x000, 0x008, 0x004, 0x00C, 0x100, 0x108, 0x104, 0x10C].map (fun s => (classify s).code) =
      [0x0, 0xA, 0x9, 0x9, 0x8, 0x8, 0x8, 0x8] ∧
    ([0x001, 0x009, 0x005, 0x00D, 0x101, 0x109, 0x105, 0x10D].all fun s => (classify s).code == 0x7) = true ∧
    ([0x002, 0x00A, 0x006, 0x00E, 0x102, 0x10A, 0x106, 0x10E].all fun s => (classify s).code == 0x6) = true ∧
    ([0x003, 0x00B, 0x007, 0x00F, 0x103, 0x10B, 0x107, 0x10F].all fun s => (classify s).code == 0x6) = true := by decide

/-- X4: full, dropped 0xFFFFFFFF, overrun. -/
theorem test_rx_event_saturates :
    after (step (({ filled with dropped := 0xFFFFFFFF } : State).withFetchWord 24 0x00899))
      (fun t => (t.lastError, t.rxQueue, t.dropped, t.rxPort)) =
    some (.overrunError, filled.rxQueue, 0xFFFFFFFF, none) := by decide

/-- X1: ignored bits set, the byte pushed. -/
theorem test_rx_event_pushes :
    after (step (opened.withFetchWord 24 0x0F055)) (fun t => (t.lastError, t.rxQueue)) =
    some (.success, queue 1 1 0 [0x55, 0, 0, 0]) := by decide

/-! ### Drain (L2.4) -/

/-- D9: the destination wraps. -/
theorem test_read_wraps :
    after
      (step (({ opened with rxQueue := queue 2 2 0 [1, 2, 0, 0] } : State).withFetchWord 72 0x00000002FFFFFFFF03))
      (fun t => (t.mem, t.rxQueue, t.rxIrqEnable, t.responses)) =
    some ([(0x00000000, 2), (0xFFFFFFFF, 1)], queue 0 2 2 [1, 2, 0, 0], true, [0x000000020#36]) := by decide

/-- D10: bytes 0 and 1 written, byte 2 popped and lost. -/
theorem test_read_faults :
    after (step (({ holding with hostMem := narrow } : State).withFetchWord 72 0x000000030000100003))
      (fun t => ((t.mem, t.rxQueue.count), (t.faulted, t.rxIrqEnable), (t.faultAddr, t.responses))) =
    some (([(0x1000, 1), (0x1001, 2)], 0), (true, false), (some 0x1002, [])) := by decide

/-! ### Transmit (L2.5) -/

/-- T3: a[31:8] ignored. -/
theorem test_send_byte_starts :
    after (step (opened.withFetchWord 72 0x000000001234564104)) (fun t => (t.send, t.trace, t.responses)) =
    some (.busy .byte 0x41 1, [], []) := by decide

/-- T2, its transmit step. -/
theorem test_send_byte_transmits :
    after (step { busy (.busy .byte 0x41 1) with moves := [.transmit] }) (fun t => (t.send, t.trace, t.responses)) =
    some (.idle, [.writeData 0x41], [0x000000000#36]) := by decide

/-- T5. -/
theorem test_send_string_null :
    after (step (opened.withFetchWord 72 0x05)) (fun t => (t.send, t.responses)) = some (.idle, [0x000000001#36]) := by
  decide

/-- T6b: the terminator needs no `tx_ready`. -/
theorem test_send_string_terminator :
    after (step { busy (.busy .string 0x502 0) with mem := text, txReady := false, moves := [.transmit] })
      (fun t => (t.send, t.trace, t.responses)) =
    some (.idle, [], [0x000000000#36]) := by decide

/-- T9: null before length. -/
theorem test_send_array_null :
    after (step (opened.withFetchWord 72 0x06)) (fun t => (t.send, t.responses)) = some (.idle, [0x000000001#36]) := by
  decide

/-- T11b: the read is checked before the wait. -/
theorem test_send_array_faults :
    after (step { busy (.busy .array 0x700 1) with hostMem := narrow, txReady := false, moves := [.transmit] })
      (fun t => (t.send, t.trace, t.faulted, t.faultAddr)) =
    some (.busy .array 0x700 1, [], true, some 0x700) := by decide

/-! ### Queries and reserved opcodes (L2.6) -/

/-- Q2. -/
theorem test_get_last_error :
    after (step (({ fresh with lastError := .lineBreakError } : State).withFetchWord 72 0x07)) (·.responses) =
    some [0x000000080#36] := by decide

/-- Q3. -/
theorem test_get_dropped :
    after (step (({ fresh with dropped := 5 } : State).withFetchWord 72 0x08)) (·.responses) =
    some [0x000000050#36] := by decide

/-- Q4. -/
theorem test_get_status : after (step (opened.withFetchWord 72 0x09)) (·.responses) = some [0x000000030#36] := by decide

/-- Q6. -/
theorem test_get_count : after (step (holding.withFetchWord 72 0x0A)) (·.responses) = some [0x000000030#36] := by decide

/-- Q7. -/
theorem test_reserved_00 : after (step (opened.withFetchWord 72 0x00)) (·.responses) = some [0x000000001#36] := by decide

/-- Q9. -/
theorem test_reserved_ff :
    after (step (fresh.withFetchWord 72 0xFFFFFFFFFFFFFFFFFF)) (fun t => (t.state, t.responses)) =
    some (.closed, [0x000000001#36]) := by decide

/-! ### The FIFO engine (L2.1), on the instance of its own -/

/-- F1. -/
theorem test_fifo_init :
    after (step (({ opened with fifoEngine := queue 3 1 2 [1, 2, 3, 4] } : State).withFetchWord 8 0b11))
      (fun t => (t.fifoEngine, t.fifoReply.map (·.fok))) =
    some (queue 0 0 0 [1, 2, 3, 4], some true) := by decide

/-- F3: writeIndex wraps. -/
theorem test_fifo_push_wraps :
    after (step (({ opened with fifoEngine := queue 0 3 3 [0, 0, 0, 0] } : State).withFetchWord 16 0b0111111101))
      (fun t => (t.fifoEngine, t.fifoReply.map (·.fok))) =
    some (queue 1 0 3 [0, 0, 0, 0x7F], some true) := by decide

/-- F5: full rejection. -/
theorem test_fifo_push_full :
    after (step (({ opened with fifoEngine := queue 4 2 2 [1, 2, 3, 4] } : State).withFetchWord 16 0b0000000101))
      (fun t => (t.fifoEngine, t.fifoReply.map (·.fok))) =
    some (queue 4 2 2 [1, 2, 3, 4], some false) := by decide

/-- F4: readIndex wraps. -/
theorem test_fifo_pop_wraps :
    after (step (({ opened with fifoEngine := queue 1 0 3 [0, 0, 0, 0x7F] } : State).withFetchWord 8 0b10))
      (fun t => (t.fifoEngine, t.fifoReply)) =
    some (queue 0 0 0 [0, 0, 0, 0x7F], some { fok := true, frdata := 0x7F }) := by decide

/-- F2: empty rejection. -/
theorem test_fifo_pop_empty :
    after (step (opened.withFetchWord 8 0b10)) (fun t => (t.fifoEngine, t.fifoReply.map (·.fok))) =
    some (opened.fifoEngine, some false) := by decide

theorem test_fifo_idle :
    after (step (holding.withFetchWord 8 0b00)) (fun t => (t.fifoEngine, t.fifoReply, t.fifoPort)) =
    some (holding.fifoEngine, none, none) := by decide

/-- The block's queue is out of a bare request's reach (R25, R78). -/
theorem test_fifo_pop_leaves_the_receive_queue :
    after (step (holding.withFetchWord 8 0b10)) (fun t => (t.rxQueue, t.fifoReply.map (·.fok))) =
    some (holding.rxQueue, some false) := by decide

/-! ### Reset (L2.7), the stop (P5), the text form -/

/-- Z2: a busy send is abandoned with no response. -/
theorem test_reset_abandons_send :
    after (step { busy (.busy .array 0x501 2) with moves := [.powerReset] })
      (fun t => (t.state, t.send, t.rxIrqEnable, t.responses)) =
    some (.closed, .idle, false, []) := by decide

/-- P5, steps 6 and 8: a command waits out the stop and is accepted after reset. -/
theorem test_held_command_survives_reset :
    after (core.run 3
        { stopped with
          cmdPort := some 0x09#72, awaiting := true, moves := [.acceptCommand, .powerReset, .acceptCommand] })
      (fun t => (t.cmdPort, t.responses)) =
    some (none, [0x000000000#36]) := by decide

theorem test_assemble_open :
    assembleLine "open 0x2580 ; x".toList = some [.issueCommand 0x000000000000258001#72, .acceptCommand] := by decide

theorem test_assemble_rx :
    assembleLine "RX FE|PE, 0x41".toList = some [.offerEvent 0x00341#18, .takeEvent] := by decide

/-! ### Witnesses: states and operands that meet the hypotheses of each obligation, clause by clause -/

theorem witness_DecodeOfEncode :
    (Instr.reserved0BFF 0x0B 0 0).wf = true ∧ (Instr.reserved0BFF 0xFF 0 0).wf = true ∧
    (Instr.sendByte 0xFF 0 0).wf = true := by decide

theorem witness_OpcodeMap :
    (∀ op < 13, (BitVec.ofNat 72 op).toNat % 2 ^ 8 = op) ∧ (0xFF#72).toNat % 2 ^ 8 = 0xFF ∧ 0x0B ≤ 0xFF := by decide

theorem witness_FifoPortMap : ∀ fop < 4, (BitVec.ofNat 10 fop).toNat % 4 = fop := by decide

theorem witness_IgnoredOperandsHaveNoEffect :
    (0x000000020000010003#72).toNat % 2 ^ 8 = 0x03 ∧ (0x000000020000010006#72).toNat % 2 ^ 8 = 0x06 ∧
    (0x01#72).toNat % 2 ^ 40 = (0xFF000000000000000001#72).toNat % 2 ^ 40 ∧
    (0x4104#72).toNat % 2 ^ 16 = (0x000000001234564104#72).toNat % 2 ^ 16 ∧
    (0x02#72).toNat % 2 ^ 8 = (0xFFFFFFFFFFFFFFFF02#72).toNat % 2 ^ 8 := by decide

theorem witness_StepRunsTheDecodedInstruction :
    let s := { opened with
      cmdPort := some 0x0A#72, rxPort := some 0x00031#18, fifoPort := some 0b10#10, moves := [.acceptCommand] }
    s.moves = .acceptCommand :: [] ∧ s.cmdPort = some 0x0A#72 ∧
    encode (.getCount 0 0) = .command 0x0A#72 ∧ (Instr.getCount 0 0).wf = true ∧
    encode (.rxEvent 0 0x31) = .event 0x00031#18 ∧ encode (.fifoTryPop 0) = .fifo 0b10#10 := by decide

theorem witness_PlacedWordRunsNext :
    decodeTableWord 72 0x0A = some (.getCount 0 0) ∧ encode (.getCount 0 0) = .command 0x0A#72 ∧
    decodeTableWord 24 0x31 = some (.rxEvent 0 0x31) ∧ encode (.rxEvent 0 0x31) = .event 0x31#18 ∧
    decodeTableWord 8 2 = some (.fifoTryPop 0) ∧ encode (.fifoTryPop 0) = .fifo 2#10 := by decide

theorem witness_CommandIsHeldWhileBusyOrFaulted :
    (encode (.close 0 0)).port = .command ∧ (busy (.busy .byte 0x41 1)).send ≠ .idle ∧ stopped.faulted = true := by decide

theorem witness_AgentMoves :
    opened.cmdPort = none ∧ ({ opened with cmdPort := some 0x02#72 } : State).cmdPort ≠ none ∧
    opened.send = .idle ∧ stopped.faulted = true ∧
    (busy (.busy .byte 0x41 1)).send ≠ .idle ∧ (busy (.busy .byte 0x41 1)).faulted = false ∧
    (∀ m ∈ [Move.issueCommand 0x02, .offerEvent 0x00031, .setTxReady true, .requestFifo 0b10, .hostWrite 0 1],
      ({ opened with
        rxPort := some 0x00041#18, fifoPort := some 0b11#10, cmdPort := some 0x07#72, moves := [m] } : State).moves =
      m :: []) := by decide

theorem witness_OnlyAStoppedBlockFaults :
    (stopped.moves = [] ∧ stopped.faulted = true) ∧ opened.faulted = false ∧
    ({ stopped with moves := [.transmit] } : State).moves ≠ [] := by decide

theorem witness_OpenResult_CloseResult :
    fresh.send = .idle ∧ fresh.faulted = false ∧ fresh.state = .closed ∧
    holding.send = .idle ∧ holding.faulted = false ∧ holding.state = .opened := by decide

theorem witness_ReopenConfiguresAgain :
    let s := { fresh with moves := (expandPseudo (.reopen 19200)).flatMap instrMoves ++ [] }
    s.send = .idle ∧ s.faulted = false ∧ s.cmdPort = none ∧
    s.moves = (expandPseudo (.reopen 19200)).flatMap instrMoves ++ [] ∧ s.moves.length = 4 := by decide

theorem witness_QueriesAnswerTheirRegister :
    holding.Inv ∧ holding.send = .idle ∧ holding.faulted = false ∧ holding.lastError = .success :=
  ⟨inv_of_check (by decide), by decide, by decide, by decide⟩

theorem witness_QueriesAnswerTheirRegister_errors :
    ∀ e ∈ [ResultCode.framingError, .parityError, .lineBreakError, .noiseError, .overrunError],
      invCheck { fresh with lastError := e } = true := by decide

theorem witness_LastErrorQueryCompletes :
    let s := { fresh with lastError := .overrunError }
    s.Inv ∧ s.send = .idle ∧ s.faulted = false := ⟨inv_of_check (by decide), by decide, by decide⟩

theorem witness_ReservedOpcodes :
    (0x00#72).toNat % 2 ^ 8 = 0x00 ∧ 0x0B ≤ (0x0B#72).toNat % 2 ^ 8 ∧ 0x0B ≤ (0xFF#72).toNat % 2 ^ 8 ∧
    fresh.send = .idle ∧ fresh.faulted = false := by decide

theorem witness_ReadChecks :
    (fresh.send = .idle ∧ fresh.faulted = false ∧ fresh.state = .closed) ∧
    (holding.send = .idle ∧ holding.faulted = false ∧ holding.state = .opened) ∧
    (0xFFFFFFFF : Word) ≠ 0 ∧ (1 : Word) ≠ 0 := by decide

theorem witness_ReadDrains :
    holding.Inv ∧ holding.send = .idle ∧ holding.faulted = false ∧ holding.state = .opened ∧
    (2 : Word) ≠ 0 ∧ (0xFFFFFFFF : Word) ≠ 0 ∧ 2 = min holding.rxQueue.count (2 : Word).toNat ∧
    ∀ i < 2, holding.admits (0xFFFFFFFF + BitVec.ofNat 32 i) .write = true :=
  ⟨inv_of_check (by decide), by decide, by decide, by decide, by decide, by decide, by decide, by decide⟩

theorem witness_ReadFaultsMidway :
    let s := { holding with hostMem := narrow }
    s.Inv ∧ s.send = .idle ∧ s.faulted = false ∧ s.state = .opened ∧ (0x1000 : Word) ≠ 0 ∧
    2 < min s.rxQueue.count (3 : Word).toNat ∧
    (∀ i < 2, s.admits (0x1000 + BitVec.ofNat 32 i) .write = true) ∧
    s.admits (0x1000 + BitVec.ofNat 32 2) .write = false :=
  ⟨inv_of_check (by decide), by decide, by decide, by decide, by decide, by decide, by decide, by decide⟩

theorem witness_DrainAndReceiveInEitherOrder :
    holding.Inv ∧ holding.send = .idle ∧ holding.faulted = false ∧ holding.state = .opened ∧
    (2 : Word) ≠ 0 ∧ (0x100 : Word) ≠ 0 ∧ (classify 0x008).isLineLevel = false ∧
    holding.rxQueue.count < holding.rxQueue.capacity ∧
    ∀ i < min (holding.rxQueue.count + 1) (2 : Word).toNat,
      holding.admits (0x100 + BitVec.ofNat 32 i) .write = true :=
  ⟨inv_of_check (by decide), by decide, by decide, by decide, by decide, by decide, by decide, by decide, by decide⟩

theorem witness_SendChecks_SendsBecomeBusy :
    (fresh.send = .idle ∧ fresh.faulted = false ∧ fresh.state = .closed) ∧
    (opened.send = .idle ∧ opened.faulted = false ∧ opened.state = .opened) ∧
    (0x500 : Word) ≠ 0 ∧ (0xFFFFFFFF : Word) ≠ 0 := by decide

theorem witness_TransmitByteStep :
    let s := { busy (.busy .byte 0x41 1) with moves := [.transmit] }
    s.moves = .transmit :: [] ∧ s.faulted = false ∧ s.send = .busy .byte 0x41 1 ∧ s.txReady = true ∧
    ({ s with txReady := false } : State).txReady = false := by decide

theorem witness_TransmitStringStep :
    let s := { busy (.busy .string 0x501 0) with mem := text, moves := [.transmit] }
    s.moves = .transmit :: [] ∧ s.faulted = false ∧ s.send = .busy .string 0x501 0 ∧
    s.admits 0x501 .read = true ∧ s.hostByte 0x501 ≠ 0 ∧ s.hostByte 0x502 = 0 ∧
    ({ s with hostMem := narrow } : State).admits 0x501 .read = false := by decide

theorem witness_TransmitArrayStep :
    let s := { busy (.busy .array 0x501 2) with mem := text, moves := [.transmit] }
    s.moves = .transmit :: [] ∧ s.faulted = false ∧ s.send = .busy .array 0x501 2 ∧
    s.admits 0x501 .read = true ∧ (2 : Word) ≠ 1 ∧ (2 : Word) ≠ 0 ∧ (1 : Word) ≠ 0 ∧
    ({ s with hostMem := narrow } : State).admits 0x501 .read = false := by decide

theorem witness_SendArrayCompletes :
    let s := { opened with
      txReady := true, mem := text, cmdPort := some ((3 : Word) ++ (0x500 : Word) ++ 0x06#8)
      moves := .acceptCommand :: (List.replicate 3 Move.transmit ++ []) }
    s.send = .idle ∧ s.faulted = false ∧ s.state = .opened ∧ s.txReady = true ∧ (0x500 : Word) ≠ 0 ∧ 1 ≤ 3 ∧
    (3 : Word) = BitVec.ofNat 32 3 ∧ 3 < 2 ^ 32 ∧ s.cmdPort = some ((3 : Word) ++ (0x500 : Word) ++ 0x06#8) ∧
    s.moves = .acceptCommand :: (List.replicate 3 Move.transmit ++ []) ∧
    ∀ i < 3, s.admits (0x500 + BitVec.ofNat 32 i) .read = true := by decide

theorem witness_SendStringCompletes :
    let s := { opened with
      txReady := true, mem := text, cmdPort := some ((0 : Word) ++ (0x500 : Word) ++ 0x05#8)
      moves := .acceptCommand :: (List.replicate 3 Move.transmit ++ []) }
    s.send = .idle ∧ s.faulted = false ∧ s.state = .opened ∧ (2 ≠ 0 → s.txReady = true) ∧ (0x500 : Word) ≠ 0 ∧
    s.cmdPort = some ((0 : Word) ++ (0x500 : Word) ++ 0x05#8) ∧
    s.moves = .acceptCommand :: (List.replicate (2 + 1) Move.transmit ++ []) ∧
    (∀ i ≤ 2, s.admits (0x500 + BitVec.ofNat 32 i) .read = true) ∧
    (∀ i < 2, s.hostByte (0x500 + BitVec.ofNat 32 i) ≠ (0 : Byte)) ∧
    s.hostByte (0x500 + BitVec.ofNat 32 2) = (0 : Byte) := by decide

/-- The empty string, without `tx_ready`. -/
theorem witness_SendStringCompletes_empty :
    let s := { opened with
      mem := text, cmdPort := some ((0 : Word) ++ (0x502 : Word) ++ 0x05#8)
      moves := .acceptCommand :: (List.replicate 1 Move.transmit ++ []) }
    s.send = .idle ∧ s.faulted = false ∧ s.state = .opened ∧ s.txReady = false ∧ (0 ≠ 0 → s.txReady = true) ∧
    (0x502 : Word) ≠ 0 ∧ s.cmdPort = some ((0 : Word) ++ (0x502 : Word) ++ 0x05#8) ∧
    s.moves = .acceptCommand :: (List.replicate (0 + 1) Move.transmit ++ []) ∧
    (∀ i ≤ 0, s.admits (0x502 + BitVec.ofNat 32 i) .read = true) ∧
    (∀ i < 0, s.hostByte (0x502 + BitVec.ofNat 32 i) ≠ (0 : Byte)) ∧
    s.hostByte (0x502 + BitVec.ofNat 32 0) = (0 : Byte) := by decide

theorem witness_ClassificationPrecedence :
    BitVec.getLsbD (0x3FF#10) 1 = true ∧
    (BitVec.getLsbD (0x3FD#10) 1 = false ∧ BitVec.getLsbD (0x3FD#10) 0 = true) ∧
    (∀ i ∈ [1, 0], BitVec.getLsbD (0x3FC#10) i = false) ∧ BitVec.getLsbD (0x3FC#10) 8 = true ∧
    (∀ i ∈ [1, 0, 8], BitVec.getLsbD (0x2FC#10) i = false) ∧ BitVec.getLsbD (0x2FC#10) 2 = true ∧
    (∀ i ∈ [1, 0, 8, 2], BitVec.getLsbD (0x2F8#10) i = false) ∧ BitVec.getLsbD (0x2F8#10) 3 = true ∧
    (∀ i ∈ [1, 0, 8, 2, 3], BitVec.getLsbD (0x2F0#10) i = false) := by decide

theorem witness_RxEventEffect :
    (opened.rxIrqEnable = true ∧ opened.faulted = false) ∧ classify 0x002 = .framingError ∧
    classify 0x001 = .parityError ∧ classify 0x100 = .lineBreakError ∧ classify 0x004 = .noiseError ∧
    classify 0x000 = .success ∧ classify 0x008 = .overrunError ∧
    opened.rxQueue.count ≠ opened.rxQueue.capacity ∧
    (filled.rxIrqEnable = true ∧ filled.faulted = false ∧ filled.rxQueue.count = filled.rxQueue.capacity) := by decide

theorem witness_RxEventNotEnabled : fresh.rxIrqEnable = false ∧ stopped.faulted = true := by decide

theorem witness_IgnoredStatusBits (i : Nat) (h4 : i ≠ 4) (h5 : i ≠ 5) (h6 : i ≠ 6) (h7 : i ≠ 7) (h9 : i ≠ 9) :
    BitVec.getLsbD (0x2F1#10) i = BitVec.getLsbD (0x001#10) i := by
  match i with
  | 0 | 1 | 2 | 3 | 8 => rfl
  | 4 | 5 | 6 | 7 | 9 => contradiction
  | n + 10 => rw [BitVec.getLsbD_of_ge _ _ (by omega), BitVec.getLsbD_of_ge _ _ (by omega)]

theorem witness_FifoOperations :
    (filled.rxQueue.count = filled.rxQueue.capacity) ∧ holding.rxQueue.count ≠ holding.rxQueue.capacity ∧
    fresh.rxQueue.count = 0 ∧ holding.rxQueue.count ≠ 0 ∧
    holding.rxQueue.storage[holding.rxQueue.readIndex]? = some 1 := by decide

theorem witness_FifoRowsComplete :
    let full := { stopped with fifoEngine := queue 4 2 2 [1, 2, 3, 4] }
    full.Inv ∧ full.fifoEngine.count = full.fifoEngine.capacity ∧ full.fifoEngine.count ≠ 0 ∧
    fresh.Inv ∧ fresh.fifoEngine.count ≠ fresh.fifoEngine.capacity ∧ fresh.fifoEngine.count = 0 :=
  ⟨inv_of_check (by decide), by decide, by decide, inv_of_check (by decide), by decide, by decide⟩

theorem witness_FifoDeliversInOrder :
    let q : Fifo 16 := { capacity := 1, count := 1, writeIndex := 0, readIndex := 0, storage := [0xBEEF] }
    1 ≤ q.capacity ∧ q.capacity ≤ 2 ^ 32 - 1 ∧ q.storage.length = q.capacity ∧
    ∀ r ∈ [({ fop := 1, fwdata := 5 } : FifoRequest 16), { fop := 2, fwdata := 0 }, { fop := 0, fwdata := 0 }],
      r.fop ≠ 3#2 := by decide

theorem witness_FifoPushesThenPops :
    (queue 0 3 3 [0, 0, 0, 0]).Inv ∧ (queue 0 3 3 [0, 0, 0, 0]).count = 0 ∧
    ([0x10, 0x20, 0x30, 0x40] : List Byte).length ≤ (queue 0 3 3 [0, 0, 0, 0]).capacity :=
  ⟨fifoInv_of_check (by decide), by decide, by decide⟩

theorem witness_FieldWidthsAreLeast :
    1 ≤ 4 ∧ (∀ i < 4, i < 2 ^ 2) ∧ 1 ≤ 2 ∧ (∀ i ≤ 4, i < 2 ^ 3) ∧ (∀ i < 1, i < 2 ^ 1) := by decide

theorem witness_MemoryReadAfterWrite :
    fresh.admits 0xFFFFFFFF .write = true ∧ fresh.admits 0 .read = true ∧
    ({ fresh with hostMem := narrow } : State).admits 0x1002 .write = false ∧
    ({ fresh with hostMem := narrow } : State).admits 0xFFF .read = false ∧ fresh.mem.wf = true := by decide

theorem witness_BufferAddressesWrap :
    2 ^ 32 - 1 < 2 ^ 32 ∧ bufferAddr 0xFFFFFFFF (2 ^ 32 - 1) = bufferAddr 0xFFFFFFFF (2 ^ 32 - 1) := ⟨by decide, rfl⟩

theorem witness_HostMemoryWriters :
    (∃ t, step (holding.withFetchWord 72 0x000000020000010003) = .next t ∧ t.mem ≠ holding.mem) ∧
    (∃ t, step { opened with moves := [.hostWrite 5 6] } = .next t ∧ t.mem ≠ opened.mem) ∧
    (∃ t, step { busy (.busy .byte 0x41 1) with moves := [.transmit] } = .next t) ∧
    (busy (.busy .byte 0x41 1)).send ≠ .idle ∧ (busy (.busy .byte 0x41 1)).faulted = false :=
  ⟨⟨_, rfl, by decide⟩, ⟨_, rfl, by decide⟩, ⟨_, rfl⟩, by decide, by decide⟩

theorem witness_FaultedBlockTakesNoStep :
    stopped.faulted = true ∧
    ({ stopped with moves := [.acceptCommand], cmdPort := some 0x09#72 } : State).moves.head? ≠ some .powerReset ∧
    ∃ t, step { stopped with moves := [.acceptCommand], cmdPort := some 0x09#72 } = .next t :=
  ⟨by decide, by decide, _, rfl⟩

theorem witness_FaultOnlyFromUnadmittedAccess :
    (let s := { busy (.busy .string 0x500 0) with hostMem := narrow, moves := [.transmit] };
      s.faulted = false ∧ ∃ t, step s = .next t ∧ t.faulted = true) ∧
    (let s := ({ holding with hostMem := narrow } : State).withFetchWord 72 0x000000030000100003;
      s.faulted = false ∧ ∃ t, step s = .next t ∧ t.faulted = true) :=
  ⟨⟨by decide, _, rfl, by decide⟩, by decide, _, rfl, by decide⟩

theorem witness_PowerResetEffect :
    ({ stopped with moves := [.powerReset] } : State).moves = .powerReset :: [] := by decide

theorem witness_ElaborationAndResetValues :
    (1 ≤ 1 ∧ 1 ≤ 2 ^ 32 - 1) ∧ (1 ≤ 2 ^ 32 - 1 ∧ 2 ^ 32 - 1 ≤ 2 ^ 32 - 1) ∧ 2 ^ 32 - 1 < 2 ^ 32 ∧
    ∀ c ∈ [0, 2 ^ 32], c = 0 ∨ 2 ^ 32 - 1 < c := by decide

theorem witness_StepKeepsInvariant :
    holding.Inv ∧ (holding.withFetchWord 72 0x000000020000010003).Inv ∧
    ∃ t, step (holding.withFetchWord 72 0x000000020000010003) = .next t :=
  ⟨inv_of_check (by decide), inv_of_check (by decide), _, rfl⟩

theorem witness_LifecycleWriters :
    (∃ t, step (fresh.withFetchWord 72 0x01) = .next t ∧ t.state ≠ fresh.state) ∧
    (∃ t, step (opened.withFetchWord 72 0x02) = .next t ∧ t.state ≠ opened.state) :=
  ⟨⟨_, rfl, by decide⟩, ⟨_, rfl, by decide⟩⟩

theorem witness_LastErrorAndDroppedWriters :
    (∃ t, step (opened.withFetchWord 24 0x00241) = .next t ∧ t.lastError ≠ opened.lastError) ∧
    (∃ t, step (filled.withFetchWord 24 0x00041) = .next t ∧ t.dropped ≠ filled.dropped) :=
  ⟨⟨_, rfl, by decide⟩, ⟨_, rfl, by decide⟩⟩

theorem witness_QueuedBytesEvolve :
    (opened.withFetchWord 24 0x00041).Inv ∧
    ∃ t, step (opened.withFetchWord 24 0x00041) = .next t ∧ t.rxQueue.contents ≠ opened.rxQueue.contents :=
  ⟨inv_of_check (by decide), _, rfl, by decide⟩

theorem witness_ReceiveQueueWriters :
    (∃ t, step (opened.withFetchWord 24 0x00041) = .next t ∧ t.rxQueue ≠ opened.rxQueue) ∧
    (∃ t, step (holding.withFetchWord 72 0x000000020000010003) = .next t ∧ t.rxQueue ≠ holding.rxQueue) ∧
    (∃ t, step (({ holding with state := .closed, rxIrqEnable := false } : State).withFetchWord 72 0x01) = .next t ∧
      t.rxQueue ≠ holding.rxQueue) ∧
    (∃ t, step { holding with moves := [.powerReset] } = .next t ∧ t.rxQueue ≠ holding.rxQueue) :=
  ⟨⟨_, rfl, by decide⟩, ⟨_, rfl, by decide⟩, ⟨_, rfl, by decide⟩, ⟨_, rfl, by decide⟩⟩

theorem witness_FifoInstanceStandsApart :
    ((holding.withFetchWord 16 0b0100010101).moves.head? = some .serveFifo ∧
      ∃ t, step (holding.withFetchWord 16 0b0100010101) = .next t ∧ t.fifoEngine ≠ holding.fifoEngine) ∧
    (∃ t, step { holding with moves := [.requestFifo 0b01] } = .next t ∧ t.fifoPort ≠ holding.fifoPort) ∧
    (holding.withFetchWord 72 0x000000020000010003).moves.head? ≠ some .serveFifo ∧
    (∃ t, step (holding.withFetchWord 72 0x000000020000010003) = .next t) :=
  ⟨⟨by decide, _, rfl, by decide⟩, ⟨_, rfl, by decide⟩, by decide, _, rfl⟩

theorem witness_OutputsGrowByRule :
    (∃ t, step (fresh.withFetchWord 72 0x01) = .next t ∧ t.trace ≠ fresh.trace) ∧
    (fresh.withFetchWord 72 0x01).cmdPort ≠ none ∧
    (∃ t, step (fresh.withFetchWord 72 0x01) = .next t ∧ t.cmdPort = none) :=
  ⟨⟨_, rfl, by decide⟩, by decide, ⟨_, rfl, by decide⟩⟩

theorem witness_ResponsesCarryFourCodes :
    ∃ t, step (fresh.withFetchWord 72 0x03) = .next t ∧ t.responses = fresh.responses ++ [0x2#36] := ⟨_, rfl, by decide⟩

theorem witness_UnqueuedStorageIsUnobservable :
    let s := holding
    let t := { holding with rxQueue := queue 3 3 0 [1, 2, 3, 0xFF], fifoEngine := queue 0 0 0 [0, 0, 0, 0xFF] }
    s.Inv ∧ t.Inv ∧ s.SameVisible t ∧ s ≠ t :=
  ⟨inv_of_check (by decide), inv_of_check (by decide),
    ⟨⟨rfl, rfl, rfl, rfl, by decide⟩, ⟨rfl, rfl, rfl, rfl, by decide⟩, rfl⟩, by decide⟩

end Sys2Proof.Tests
end

section
/-!
SUPPORT. Proofs of the statements of the family 00_scope.md: what the agents' moves do, that a step runs the instruction its port's
word encodes, that the FIFO engine instance beside the block stands apart, the least field widths and the saturating
increment.
-/

namespace Sys2Proof

/-! ### The decoder and the encoder are inverse to each other (30_encoding.md R70, R79) -/

/-- A well-formed instruction is read back from its word; the range row is where well-formedness counts, since its opcode
must be none of the assigned ones (R80). -/
theorem decode_encode {i : Instr} (h : i.wf = true) : decode (encode i) = i := by
  cases i with
  | reserved0BFF op a b =>
    have hop : 0x0B ≤ op.toNat := by simpa [Instr.wf] using h
    simp only [encode, decode, decodeCommand, cmdOp_commandWord, cmdA_commandWord, cmdB_commandWord]
    split
    case h_12 => rfl
    all_goals omega
  | rxEvent status d => simp [encode, decode, decodeEvent]
  | fifoIdle x | fifoTryPush x | fifoTryPop x | fifoInit x => simp [encode, decode, decodeFifo]
  | _ => simp [encode, decode, decodeCommand]

/-- A command word from its opcode as a number and its operands. -/
theorem commandWord_of_op {w : BitVec 72} {n : Nat} (h : (cmdOp w).toNat = n) :
    commandWord (BitVec.ofNat 8 n) (cmdA w) (cmdB w) = w := by
  rw [← h, BitVec.ofNat_toNat, BitVec.setWidth_eq, commandWord_fields]

/-- A FIFO word from its operation as a number and its data. -/
theorem fifoWord_of_op {w : BitVec 10} {n : Nat} (h : (fifoOp w).toNat = n) :
    fifoWord (BitVec.ofNat 2 n) (fifoData w) = w := by
  rw [← h, BitVec.ofNat_toNat, BitVec.setWidth_eq, fifoWord_fields]

theorem encode_decodeCommand (w : BitVec 72) : encode (decodeCommand w) = .command w := by
  unfold decodeCommand
  split
  case h_5 h =>
    rw [encode, operand_of_byte]
    exact congrArg _ (commandWord_of_op h)
  case h_12 => exact congrArg _ (commandWord_fields w)
  all_goals exact congrArg _ (commandWord_of_op ‹_›)

theorem encode_decodeFifo (w : BitVec 10) : encode (decodeFifo w) = .fifo w := by
  unfold decodeFifo
  split
  case h_4 h0 h1 h2 =>
    have hlt := (fifoOp w).isLt
    change ¬_ at h0 h1 h2
    exact congrArg _ (fifoWord_of_op (n := 3) (by omega))
  all_goals exact congrArg _ (fifoWord_of_op ‹_›)

/-- Every word of every port is the word of the instruction it decodes to. -/
theorem encode_decode (p : PortWord) : encode (decode p) = p := by
  cases p with
  | command w => exact encode_decodeCommand w
  | event w => exact congrArg _ (eventWord_fields w)
  | fifo w => exact encode_decodeFifo w

/-- Bits that decode are the bits of a word of some port, the one their instruction encodes to. -/
theorem wordOfBits_of_decodeTableWord {nbits w : Nat} {i : Instr} (h : decodeTableWord nbits w = some i) :
    wordOfBits nbits w = .ok (encode i) ∧ decode (encode i) = i := by
  unfold decodeTableWord decodeBits at h
  cases hp : wordOfBits nbits w with
  | error e => simp [hp] at h
  | ok p =>
    have hi : decode p = i := by simpa [hp] using h
    rw [← hi, encode_decode]
    exact ⟨rfl, rfl⟩

end Sys2Proof

namespace Sys2Proof.Machine

/-! ### The step, move by move (00_scope.md R5) -/

/-- A step with a move left runs that move, in the state whose list of moves it has left. -/
theorem step_cons {s : State} {m : Move} {rest : List Move} (h : s.moves = m :: rest) :
    step s = runMove m { s with moves := rest } := by
  simp only [step, nextMove, h]

theorem acceptCommand_some {s : State} {w : BitVec 72} (h : s.cmdPort = some w) :
    acceptCommand s = exec (decode (.command w)) s := by
  simp only [acceptCommand, h]

theorem takeEvent_some {s : State} {w : BitVec 18} (h : s.rxPort = some w) :
    takeEvent s = exec (decode (.event w)) s := by
  simp only [takeEvent, h]

theorem serveFifo_some {s : State} {w : BitVec 10} (h : s.fifoPort = some w) :
    serveFifo s = exec (decode (.fifo w)) s := by
  simp only [serveFifo, h]

theorem issueCommand_empty {s : State} (w : BitVec 72) (h : s.cmdPort = none) :
    issueCommand w s = { s with cmdPort := some w, awaiting := true } := by
  simp only [issueCommand, h]

theorem issueCommand_held {s : State} (w : BitVec 72) (h : s.cmdPort ≠ none) : issueCommand w s = s := by
  obtain ⟨c, hc⟩ := Option.ne_none_iff_exists'.1 h
  simp only [issueCommand, hc]

theorem hostWrite_outside_command {s : State} (a : Word) (v : Byte) (hp : s.cmdPort = none)
    (hs : s.send = .idle ∨ s.faulted = true) : hostWrite a v s = s.setHostByte a v :=
  if_pos ⟨hp, hs⟩

theorem hostWrite_during_command {s : State} (a : Word) (v : Byte)
    (h : s.cmdPort ≠ none ∨ s.send ≠ .idle ∧ s.faulted = false) : hostWrite a v s = s := by
  refine if_neg fun ⟨hp, hs⟩ => ?_
  rcases h with hn | ⟨hi, hf⟩
  · exact hn hp
  · rcases hs with hs | hs
    · exact hi hs
    · simp [hf] at hs

/-- Settles O10: each agent's move is the step's whole effect; the host's write lists one byte of memory. -/
theorem agentMoves : Obligations.AgentMoves := by
  unfold Obligations.AgentMoves
  intro s rest
  refine ⟨fun w hm => ⟨fun hp => ?_, fun hp => ?_⟩, fun w hm => step_cons hm, fun b hm => step_cons hm,
    fun w hm => step_cons hm, fun a v hm => ⟨fun hp hs => ⟨memInsert s.mem a.toNat v, ?_, fun b => ?_⟩, fun h => ?_⟩⟩
  · rw [step_cons hm, runMove, issueCommand_empty w (by exact hp)]
  · rw [step_cons hm, runMove, issueCommand_held w (by exact hp)]
  · rw [step_cons hm, runMove, hostWrite_outside_command a v (by exact hp) (by exact hs)]
    rfl
  · exact memByte_memInsert s.mem a b v
  · rw [step_cons hm, runMove, hostWrite_during_command a v (by exact h)]

/-- Settles O7: the move runs the decoded word, and the decoder reads the instruction back from its encoding. -/
theorem stepRunsTheDecodedInstruction : Obligations.StepRunsTheDecodedInstruction := by
  unfold Obligations.StepRunsTheDecodedInstruction
  intro s rest i hwf
  refine ⟨fun w hm hp he => ?_, fun w hm hp he => ?_, fun w hm hp he => ?_⟩
  · rw [step_cons hm, runMove, acceptCommand_some (by exact hp), ← he, decode_encode hwf]
  · rw [step_cons hm, runMove, takeEvent_some (by exact hp), ← he, decode_encode hwf]
  · rw [step_cons hm, runMove, serveFifo_some (by exact hp), ← he, decode_encode hwf]

/-! ### A placed word (log 16) -/

/-- Bits that decode to an instruction put that instruction's word at its port. -/
theorem withFetchWord_of_decodeTableWord {nbits w : Nat} {i : Instr} (s : State)
    (h : decodeTableWord nbits w = some i) : s.withFetchWord nbits w = presentWord (encode i) s := by
  simp only [State.withFetchWord, presentBits, (wordOfBits_of_decodeTableWord h).1]

/-- Settles O8: the placed word is the instruction's own, and the next step decodes it. -/
theorem placedWordRunsNext : Obligations.PlacedWordRunsNext := by
  unfold Obligations.PlacedWordRunsNext
  intro s nbits w i h
  have hd := (wordOfBits_of_decodeTableWord h).2
  rw [withFetchWord_of_decodeTableWord s h]
  refine ⟨fun c he => ?_, fun e he => ?_, fun f he => ?_⟩
  · rw [he] at hd ⊢
    rw [presentWord, step_cons rfl, runMove, acceptCommand_some rfl, hd]
  · rw [he] at hd ⊢
    rw [presentWord, step_cons rfl, runMove, takeEvent_some rfl, hd]
  · rw [he] at hd ⊢
    rw [presentWord, step_cons rfl, runMove, serveFifo_some rfl, hd]

/-! ### The FIFO engine instance beside the block (00_scope.md R8; log 10) -/

/-- READ's critical section reaches neither the instance, nor its reply, nor the count of draws. -/
theorem readEffect_fifoInstance (dst n : Word) (s : State) :
    (readEffect dst n s).fifoEngine = s.fifoEngine ∧ (readEffect dst n s).fifoReply = s.fifoReply ∧
      (readEffect dst n s).draws = s.draws := by
  obtain ⟨c, r, m, h | ⟨k, -, -, -, h⟩⟩ := readEffect_shape dst n s <;> rw [h] <;> exact ⟨rfl, rfl, rfl⟩

/-- Only the instance's own step changes the instance, its reply or the count of draws. -/
theorem step_fifoInstance {s t : State} (h : step s = .next t) (hm : s.moves.head? ≠ some .serveFifo) :
    t.fifoEngine = s.fifoEngine ∧ t.fifoReply = s.fifoReply ∧ t.draws = s.draws := by
  cases step_shape h with
  | fifoIdle rest hs => exact absurd (by rw [hs]; rfl) hm
  | fifoServed r reply rest hs => exact absurd (by rw [hs]; rfl) hm
  | drained w dst n rest => exact readEffect_fifoInstance dst n _
  | _ => exact ⟨rfl, rfl, rfl⟩

/-- Serving the request changes nothing but the instance's port, the instance, its reply and the count of draws. -/
theorem serveFifo_touches_only {s t : State} (h : serveFifo s = .next t) :
    t = { s with fifoPort := t.fifoPort, fifoEngine := t.fifoEngine, fifoReply := t.fifoReply, draws := t.draws } := by
  cases hp : s.fifoPort with
  | none =>
    simp only [serveFifo, hp] at h
    cases h
    rfl
  | some w =>
    obtain ⟨r, hr⟩ := exec_fifo (port_fifo w) s
    rw [serveFifo_some hp, hr] at h
    rcases onFifoPort_next h with rfl | ⟨reply, rfl⟩ <;> rfl

/-- Settles O53, by the step's shapes in one direction and the instance's two moves in the other. -/
theorem fifoInstanceStandsApart : Obligations.FifoInstanceStandsApart := by
  unfold Obligations.FifoInstanceStandsApart
  intro s t h
  refine ⟨step_fifoInstance h, ?_⟩
  rintro (hm | ⟨w, hm⟩) <;> obtain ⟨rest, hs⟩ := List.head?_eq_some_iff.1 hm <;> rw [step_cons hs] at h <;>
    rw [hs, List.tail_cons]
  · exact serveFifo_touches_only h
  · cases h
    rfl

/-! ### The least widths (00_scope.md R6) and the saturating increment (R9) -/

/-- `ceilLog2 n` is the least `k` with `n ≤ 2 ^ k`. -/
theorem ceilLog2_le_iff {n k : Nat} : ceilLog2 n ≤ k ↔ n ≤ 2 ^ k := by
  unfold ceilLog2
  split
  · have := Nat.one_le_two_pow (n := k)
    omega
  · rw [Nat.add_one_le_iff, Nat.log2_lt (by omega)]
    omega

/-- All numbers below `c` fit `k` bits exactly when `k` is at least `ceilLog2 c`. -/
theorem ceilLog2_le_iff_forall_lt {c k : Nat} (hc : 1 ≤ c) : ceilLog2 c ≤ k ↔ ∀ i < c, i < 2 ^ k := by
  rw [ceilLog2_le_iff]
  refine ⟨fun h i hi => hi.trans_le h, fun h => ?_⟩
  have := h (c - 1) (by omega)
  omega

/-- Settles O38: each width is, from its formula, the least that holds the values below a bound. -/
theorem fieldWidthsAreLeast : Obligations.FieldWidthsAreLeast := by
  unfold Obligations.FieldWidthsAreLeast idxWidth cntWidth
  intro c hc
  simp only [← Nat.lt_succ_iff (n := c)]
  exact ⟨(ceilLog2_le_iff_forall_lt hc).1 (le_max_right _ _),
    fun k hk h => max_le hk ((ceilLog2_le_iff_forall_lt hc).2 h),
    (ceilLog2_le_iff_forall_lt c.succ_pos).1 le_rfl, fun k h => (ceilLog2_le_iff_forall_lt c.succ_pos).2 h⟩

/-- Settles O39: below the largest value one is added without wrapping; at it, nothing is. -/
theorem saturatingIncrement : Obligations.SaturatingIncrement := by
  unfold Obligations.SaturatingIncrement satInc
  intro n v
  split
  case isTrue hlt =>
    have hadd : (v + 1).toNat = v.toNat + 1 := by simp [Nat.mod_eq_of_lt (show v.toNat + 1 < 2 ^ n by omega)]
    omega
  case isFalse hge =>
    have hv := v.isLt
    omega

end Sys2Proof.Machine
end

section
/-!
SUPPORT. Proofs of the statements of the family 10_state.md: the reset values, the invariant and that every step keeps
it, what writes each state of the block, and that storage holding no queued element is never observable.
-/

namespace Sys2Proof.Machine

/-! ### Elaboration and power-up (10_state.md R32) -/

/-- An engine of a legal capacity meets the invariant when it is made. -/
theorem Fifo.fresh_inv {c : Nat} (h1 : 1 ≤ c) (h2 : c ≤ 2 ^ 32 - 1) : (Fifo.fresh c).Inv where
  capacity_pos := h1
  capacity_le := h2
  count_le := Nat.zero_le c
  writeIndex_lt := h1
  readIndex_lt := h1
  storage_length := List.length_replicate
  writeIndex_eq := (Nat.zero_mod c).symm

theorem State.powerUp_inv {c f : Nat} (hostMem : List Region) (hc1 : 1 ≤ c) (hc2 : c ≤ 2 ^ 32 - 1) (hf1 : 1 ≤ f)
    (hf2 : f ≤ 2 ^ 32 - 1) : (State.powerUp c f hostMem).Inv where
  queue := Fifo.fresh_inv hc1 hc2
  engine := Fifo.fresh_inv hf1 hf2
  lastError := rfl
  irq := rfl
  send := rfl
  sendOpen h := absurd rfl h
  mem := rfl
  faultAddr := rfl
  awaiting h := by simp [State.powerUp] at h

/-- Settles O47: `State.reset` is the power-up state of two legal capacities. -/
theorem invariantAtPowerUp : Obligations.InvariantAtPowerUp := by
  unfold Obligations.InvariantAtPowerUp
  exact ⟨fun c f hostMem hc1 hc2 hf1 hf2 => State.powerUp_inv hostMem hc1 hc2 hf1 hf2,
    State.powerUp_inv _ (by decide) (by decide) (by decide) (by decide)⟩

theorem legalCapacity_iff {c : Nat} : legalCapacity c = true ↔ 1 ≤ c ∧ c ≤ 2 ^ 32 - 1 := by
  simp [legalCapacity]

theorem elaborate_legal {c f : Nat} (hostMem : List Region) (hc : legalCapacity c = true)
    (hf : legalCapacity f = true) : elaborate c f hostMem = .next (State.powerUp c f hostMem) := by
  rw [elaborate, if_pos hc, if_pos hf]

theorem elaborate_illegal {c f : Nat} (hostMem : List Region)
    (h : ¬(legalCapacity c = true ∧ legalCapacity f = true)) : ∃ r, elaborate c f hostMem = .refused r := by
  unfold elaborate
  split
  case isTrue hc => exact ⟨_, if_neg fun hf => h ⟨hc, hf⟩⟩
  case isFalse => exact ⟨_, rfl⟩

/-- Settles O46: two legal capacities elaborate to the power-up state, any others are refused. -/
theorem elaborationAndResetValues : Obligations.ElaborationAndResetValues := by
  unfold Obligations.ElaborationAndResetValues
  intro c f hostMem
  refine ⟨fun hc hf => ⟨_, elaborate_legal hostMem (legalCapacity_iff.2 hc) (legalCapacity_iff.2 hf), ?_⟩, fun h => ?_⟩
  · simp [State.powerUp, Fifo.fresh]
  · refine elaborate_illegal hostMem ?_
    simp only [legalCapacity_iff]
    omega

/-! ### READ's critical section: what it keeps, and what it does under the invariant (43_drain.md R161, R164) -/

/-- Of the queue, READ's critical section changes at most the count and the read index. -/
theorem readEffect_rxQueue (dst n : Word) (s : State) :
    ∃ c r, (readEffect dst n s).rxQueue = { s.rxQueue with count := c, readIndex := r } := by
  obtain ⟨c, r, m, h | ⟨k, -, -, -, h⟩⟩ := readEffect_shape dst n s <;> rw [h] <;> exact ⟨c, r, rfl⟩

/-- What READ's critical section leaves unchanged beside the FIFO engine instance. -/
theorem readEffect_keeps (dst n : Word) (s : State) :
    (readEffect dst n s).state = s.state ∧ (readEffect dst n s).lastError = s.lastError ∧
      (readEffect dst n s).dropped = s.dropped ∧ (readEffect dst n s).hostMem = s.hostMem := by
  obtain ⟨c, r, m, h | ⟨k, -, -, -, h⟩⟩ := readEffect_shape dst n s <;> rw [h] <;> exact ⟨rfl, rfl, rfl, rfl⟩

/-- On an Open block with no send and no command at the port, READ's critical section keeps the invariant: it pops no
more than is queued, and ends with the interrupt enabled or with the block stopped. -/
theorem readEffect_inv (dst n : Word) {s : State} (hs : s.Inv) (ho : s.state = .opened) (hi : s.send = .idle)
    (hf : s.faulted = false) (hp : s.cmdPort = none) : (readEffect dst n s).Inv := by
  have hawait : ∀ b : Bool, s.cmdPort.isSome = true ∨ s.send ≠ .idle → b = true := by simp [hp, hi]
  rcases drain_admits_or (min s.rxQueue.count n.toNat) dst s with h | ⟨k, hk, h, hbad⟩
  · rw [readEffect_admitted hs.queue h]
    exact { hs with
      queue := hs.queue.popN (Nat.min_le_left _ _)
      irq := by simp [ho, hf]
      mem := writeBytes_wf hs.mem _ _
      awaiting := hawait _ }
  · rw [readEffect_faulted hs.queue hk h hbad]
    exact { hs with
      queue := hs.queue.popN (by omega)
      irq := by simp
      mem := writeBytes_wf hs.mem _ _
      faultAddr := rfl }

/-! ### Every step keeps the invariant (10_state.md R22, R26, R27, R29) -/

theorem classify_legalLastError (status : BitVec 10) : (classify status).legalLastError = true := by
  unfold classify
  (repeat' split) <;> rfl

theorem step_inv {s t : State} (hs : s.Inv) (h : step s = .next t) : t.Inv := by
  cases step_shape h with
  | idle => exact hs
  | nothing | offered | txReadySet | requested | fifoIdle => exact { hs with }
  | issued => exact { hs with awaiting := fun _ => rfl }
  | hostWrote a v => exact { hs with mem := memInsert_wf a v hs.mem }
  | reset =>
    exact { hs with
      queue := hs.queue.init
      lastError := rfl
      irq := rfl
      send := rfl
      sendOpen := fun hn => absurd rfl hn
      faultAddr := rfl
      awaiting := fun hw => hs.awaiting (.inl (hw.resolve_right (by simp))) }
  | ended | endedWithByte =>
    exact { hs with
      send := rfl
      sendOpen := fun hn => absurd rfl hn
      awaiting := fun hw => hw.resolve_right (by simp) }
  | advancedString c a r rest _ _ hb =>
    have hl : (SendEngine.busy .string a r).legal = true := hb ▸ hs.send
    exact { hs with
      send := hl
      sendOpen := fun _ => hs.sendOpen (by simp [hb])
      awaiting := fun _ => hs.awaiting (.inr (by simp [hb])) }
  | advancedArray c a r rest _ _ hb _ hr =>
    exact { hs with
      send := decide_eq_true hr
      sendOpen := fun _ => hs.sendOpen (by simp [hb])
      awaiting := fun _ => hs.awaiting (.inr (by simp [hb])) }
  | stopped => exact { hs with irq := by simp, faultAddr := rfl }
  | answered w r v rest _ _ hi => exact { hs with awaiting := by simp [hi] }
  | opened w baud b rest _ _ _ hi hf =>
    exact { hs with
      queue := hs.queue.init
      lastError := rfl
      irq := by simp [hf]
      sendOpen := fun _ => rfl
      awaiting := by simp [hi] }
  | closed w a b rest _ _ _ hi =>
    exact { hs with irq := rfl, sendOpen := fun hn => absurd hi hn, awaiting := by simp [hi] }
  | drained w dst n rest _ _ _ hi hf ho =>
    exact readEffect_inv dst n { hs with awaiting := by simp [hi] } ho hi hf rfl
  | sendStarted w k a r rest _ hp _ _ ho hl =>
    exact { hs with send := hl, sendOpen := fun _ => ho, awaiting := fun _ => hs.awaiting (.inl (by simp [hp])) }
  | discarded w status | dropped w status => exact { hs with lastError := classify_legalLastError status }
  | pushed w status d =>
    exact { hs with queue := hs.queue.tryPush d, lastError := classify_legalLastError status }
  | fifoServed r => exact { hs with engine := hs.engine.serve r _ }

/-- Settles O48, by the shapes a step can have. -/
theorem stepKeepsInvariant : Obligations.StepKeepsInvariant := by
  unfold Obligations.StepKeepsInvariant
  exact fun s t hs h => step_inv hs h

/-! ### The move a step takes -/

/-- The move a step takes is the first one left. -/
theorem head?_moves {s : State} {m : Move} {rest : List Move} (h : s.moves = m :: rest) : s.moves.head? = some m :=
  List.head?_eq_some_iff.2 ⟨rest, h⟩

/-! ### The queued bytes (10_state.md R25, 43_drain.md R162) -/

/-- READ's critical section takes the oldest queued bytes away; where it does not stop the block, it has answered their
number and written them in order at its destination. -/
theorem readEffect_contents (dst n : Word) {s : State} (hq : s.rxQueue.Inv) :
    ∃ k, k ≤ s.rxQueue.count ∧ k ≤ n.toNat ∧
      (readEffect dst n s).rxQueue.contents = s.rxQueue.contents.drop k ∧
      ((readEffect dst n s).faulted = false →
        (readEffect dst n s).responses = s.responses ++ [responseWord .success (BitVec.ofNat 32 k)] ∧
        ∀ i < k, s.rxQueue.contents[i]? = some ((readEffect dst n s).hostByte (bufferAddr dst i))) := by
  have hle := Nat.le_min.1 (le_refl (min s.rxQueue.count n.toNat))
  rcases drain_admits_or (min s.rxQueue.count n.toNat) dst s with h | ⟨k, hk, h, hbad⟩
  · rw [readEffect_admitted hq h]
    refine ⟨_, hle.1, hle.2, contents_popN _ _, fun _ => ⟨rfl, fun i hi => ?_⟩⟩
    have hlen : (s.rxQueue.contents.take (min s.rxQueue.count n.toNat)).length = min s.rxQueue.count n.toNat := by
      rw [List.length_take, contents_length, Nat.min_eq_left hle.1]
    have hcap := hq.count_le.trans hq.capacity_le
    have hbyte := memByte_writeBytes_inside (m := s.mem) (a := dst) (by omega) (hi.trans_eq hlen.symm)
    simp only [State.hostByte_def, State.respond_mem, hbyte, List.getElem_take]
    exact List.getElem?_eq_getElem _
  · rw [readEffect_faulted hq hk h hbad]
    exact ⟨k + 1, by omega, by omega, contents_popN _ _, fun hf => by simp at hf⟩

/-- Settles O51: the four shapes that change the queue, each with what it does to the queued bytes. -/
theorem queuedBytesEvolve : Obligations.QueuedBytesEvolve := by
  unfold Obligations.QueuedBytesEvolve
  intro s t hs h
  cases step_shape h with
  | pushed w status d rest hm hp hd hirq _ hgood hroom =>
    exact .inr (.inl ⟨w, status, d, head?_moves hm, hp, hd, hirq, hgood, hroom, contents_tryPush hs.queue d hroom⟩)
  | drained w dst n rest hm hp hd =>
    obtain ⟨k, hk, hn, hc, hdone⟩ :=
      readEffect_contents dst n (s := { s with moves := rest, cmdPort := none }) hs.queue
    exact .inr (.inr (.inl ⟨w, dst, n, k, head?_moves hm, hp, hd, hk, hn, hc, hdone⟩))
  | opened w baud b rest hm hp hd =>
    exact .inr (.inr (.inr (.inl ⟨w, baud, b, head?_moves hm, hp, hd, contents_init _⟩)))
  | reset rest hm => exact .inr (.inr (.inr (.inr ⟨head?_moves hm, contents_init _⟩)))
  | _ => exact .inl rfl

/-! ### What writes each state of the block -/

/-- Settles O43: the shapes open to a faulted block are the agents' moves, the moves that change nothing, and the step
of the FIFO engine instance beside it. -/
theorem faultedBlockTakesNoStep : Obligations.FaultedBlockTakesNoStep := by
  unfold Obligations.FaultedBlockTakesNoStep
  intro s t hf hm h
  have hinst : s.moves.head? ≠ some .serveFifo → t.fifoEngine = s.fifoEngine ∧ t.fifoReply = s.fifoReply :=
    fun hserve => (step_fifoInstance h hserve).imp id And.left
  cases step_shape h with
  | idle | nothing | offered | txReadySet | requested | hostWrote | fifoIdle | fifoServed =>
    exact ⟨hf, rfl, rfl, rfl, rfl, rfl, rfl, rfl, rfl, rfl, hinst, fun _ => rfl⟩
  | issued w rest _ hp => exact ⟨hf, rfl, rfl, rfl, rfl, rfl, rfl, rfl, rfl, rfl, hinst, fun hn => absurd hp hn⟩
  | reset rest hs => exact absurd (head?_moves hs) hm
  | _ =>
    have hn : s.faulted = false := ‹_›
    simp [hf] at hn

/-- Settles O49: of the shapes a step can have, only reset, OPEN and CLOSE write the state. -/
theorem lifecycleWriters : Obligations.LifecycleWriters := by
  unfold Obligations.LifecycleWriters
  intro s t h hne
  cases step_shape h with
  | reset rest hm => exact .inl ⟨head?_moves hm, rfl⟩
  | opened w baud b rest hm hp hd _ _ hc =>
    exact .inr ⟨w, head?_moves hm, hp, .inl ⟨baud, b, hd, hc, rfl⟩⟩
  | closed w a b rest hm hp hd _ _ ho => exact .inr ⟨w, head?_moves hm, hp, .inr ⟨a, b, hd, ho, rfl⟩⟩
  | drained w dst n rest =>
    obtain ⟨hstate, -⟩ := readEffect_keeps dst n { s with moves := rest, cmdPort := none }
    exact absurd hstate hne
  | _ => exact absurd rfl hne

theorem step_lastError_writers {s t : State} (h : step s = .next t) (hne : t.lastError ≠ s.lastError) :
    (s.moves.head? = some .powerReset ∧ t.lastError = .success) ∨
      (∃ w baud b, s.moves.head? = some .acceptCommand ∧ s.cmdPort = some w ∧
        decode (.command w) = .openLine baud b ∧ t.lastError = .success) ∨
      ∃ w status d, s.moves.head? = some .takeEvent ∧ s.rxPort = some w ∧
        decode (.event w) = .rxEvent status d ∧ s.rxIrqEnable = true ∧ t.lastError = classify status := by
  cases step_shape h with
  | reset rest hm => exact .inl ⟨head?_moves hm, rfl⟩
  | opened w baud b rest hm hp hd => exact .inr (.inl ⟨w, baud, b, head?_moves hm, hp, hd, rfl⟩)
  | discarded w status d rest hm hp hd hirq | pushed w status d rest hm hp hd hirq
  | dropped w status d rest hm hp hd hirq =>
    exact .inr (.inr ⟨w, status, d, head?_moves hm, hp, hd, hirq, rfl⟩)
  | drained w dst n rest =>
    obtain ⟨-, hlast, -⟩ := readEffect_keeps dst n { s with moves := rest, cmdPort := none }
    exact absurd hlast hne
  | _ => exact absurd rfl hne

theorem step_dropped_writers {s t : State} (h : step s = .next t) (hne : t.dropped ≠ s.dropped) :
    (s.moves.head? = some .powerReset ∧ t.dropped = 0) ∨
      (∃ w baud b, s.moves.head? = some .acceptCommand ∧ s.cmdPort = some w ∧
        decode (.command w) = .openLine baud b ∧ t.dropped = 0) ∨
      (s.moves.head? = some .takeEvent ∧ s.rxIrqEnable = true ∧ s.rxQueue.count = s.rxQueue.capacity ∧
        t.dropped.toNat = s.dropped.toNat + 1) := by
  cases step_shape h with
  | reset rest hm => exact .inl ⟨head?_moves hm, rfl⟩
  | opened w baud b rest hm hp hd => exact .inr (.inl ⟨w, baud, b, head?_moves hm, hp, hd, rfl⟩)
  | dropped w status d rest hm _ _ hirq _ _ hfull =>
    exact .inr (.inr ⟨head?_moves hm, hirq, hfull, satInc_toNat_of_ne hne⟩)
  | drained w dst n rest =>
    obtain ⟨-, -, hdropped, -⟩ := readEffect_keeps dst n { s with moves := rest, cmdPort := none }
    exact absurd hdropped hne
  | _ => exact absurd rfl hne

/-- Settles O50, from the two fields' writers. -/
theorem lastErrorAndDroppedWriters : Obligations.LastErrorAndDroppedWriters := by
  unfold Obligations.LastErrorAndDroppedWriters
  exact fun s t h => ⟨step_lastError_writers h, step_dropped_writers h⟩

/-- Settles O52: of the shapes a step can have, only a push, READ, OPEN and reset write the queue. -/
theorem receiveQueueWriters : Obligations.ReceiveQueueWriters := by
  unfold Obligations.ReceiveQueueWriters
  intro s t h hne
  cases step_shape h with
  | pushed w status d rest hm hp hd hirq hf hgood hroom =>
    exact .inl ⟨w, status, d, head?_moves hm, hp, hd, hirq, hf, hgood, hroom, by rw [tryPush_not_full d hroom]⟩
  | drained w dst n rest hm hp hd hi hf ho =>
    obtain ⟨c, r, hq⟩ := readEffect_rxQueue dst n { s with moves := rest, cmdPort := none }
    exact .inr (.inl ⟨w, dst, n, head?_moves hm, hp, hd, ho, hi, hf, by rw [hq]⟩)
  | opened w baud b rest hm hp hd hi hf hc =>
    exact .inr (.inr (.inl ⟨w, baud, b, head?_moves hm, hp, hd, hc, hi, hf, rfl⟩))
  | reset rest hm => exact .inr (.inr (.inr ⟨head?_moves hm, rfl⟩))
  | _ => exact absurd rfl hne

/-- Settles O54: the three operations that reach an engine keep its capacity, and no operation reaches the map. -/
theorem parametersNeverChange : Obligations.ParametersNeverChange := by
  unfold Obligations.ParametersNeverChange
  intro s t h
  cases step_shape h with
  | pushed w status d => exact ⟨tryPush_capacity d _, rfl, rfl⟩
  | fifoServed r => exact ⟨rfl, rfl, serve_capacity r _ _⟩
  | drained w dst n rest =>
    obtain ⟨c, r, hq⟩ := readEffect_rxQueue dst n { s with moves := rest, cmdPort := none }
    obtain ⟨-, -, -, hmap⟩ := readEffect_keeps dst n { s with moves := rest, cmdPort := none }
    obtain ⟨hengine, -⟩ := readEffect_fifoInstance dst n { s with moves := rest, cmdPort := none }
    exact ⟨by rw [hq], hmap, by rw [hengine]⟩
  | _ => exact ⟨rfl, rfl, rfl⟩

/-! ### Storage that holds no queued element is never observable (10_state.md R33, R36) -/

/-- An effect that does the same on two states that differ only in storage entries that hold no queued element. -/
def KeepsVisible (f : State → State) : Prop :=
  ∀ s t : State, s.rxQueue.Inv → t.rxQueue.Inv → s.SameVisible t → (f s).SameVisible (f t)

/-- Two such states are one state with two contents of its FIFO engines. -/
theorem State.SameVisible.exists_queues {s t : State} (h : s.SameVisible t) :
    ∃ q e, s.rxQueue.SameVisible q ∧ s.fifoEngine.SameVisible e ∧ t = { s with rxQueue := q, fifoEngine := e } :=
  ⟨t.rxQueue, t.fifoEngine, h.queue, h.engine, by rw [h.rest]⟩

/-- An effect that neither reads nor writes the two FIFO engines. -/
theorem keepsVisible_of_queues {f : State → State}
    (hf : ∀ s q e, f { s with rxQueue := q, fifoEngine := e } = { f s with rxQueue := q, fifoEngine := e }) :
    KeepsVisible f := by
  intro s t _ _ h
  obtain ⟨q, e, hq, he, rfl⟩ := h.exists_queues
  have hself : f s = { f s with rxQueue := s.rxQueue, fifoEngine := s.fifoEngine } := hf s s.rxQueue s.fifoEngine
  rw [hf s q e, hself]
  exact ⟨hq, he, rfl⟩

/-! #### The commands -/

theorem onCommandPort_sameVisible {f : State → State} (hf : KeepsVisible f) {s t : State} (hs : s.rxQueue.Inv)
    (ht : t.rxQueue.Inv) (h : s.SameVisible t) :
    OutcomesRelated State.SameVisible (onCommandPort s f) (onCommandPort t f) := by
  have hready : t.ready = s.ready := by rw [h.rest]; rfl
  cases hr : s.ready with
  | true =>
    rw [onCommandPort_ready hr, onCommandPort_ready (hready.trans hr)]
    exact hf _ _ hs ht ⟨h.queue, h.engine, by rw [h.rest]; rfl⟩
  | false =>
    rw [onCommandPort_held hr, onCommandPort_held (hready.trans hr)]
    exact h

theorem respond_keepsVisible (r : ResultCode) (v : Word) : KeepsVisible fun s => s.respond r v :=
  keepsVisible_of_queues fun _ _ _ => rfl

theorem startSend_queues (check : Option ResultCode) (k : SendKind) (a r : Word) (s : State) (q e : Fifo 8) :
    startSend check k a r { s with rxQueue := q, fifoEngine := e } =
      { startSend check k a r s with rxQueue := q, fifoEngine := e } := by
  cases check <;> rfl

theorem openEffect_keepsVisible (baud : Word) : KeepsVisible (openEffect baud) := by
  intro s t _ _ h
  obtain ⟨q, e, hq, he, rfl⟩ := h.exists_queues
  exact ⟨hq.init, he, rfl⟩

/-- READ's critical section pops and writes the same bytes, hence ends alike. -/
theorem readEffect_keepsVisible (dst n : Word) : KeepsVisible (readEffect dst n) := by
  intro s t hs ht h
  have hirq : ({ s with rxIrqEnable := false } : State).SameVisible { t with rxIrqEnable := false } :=
    ⟨h.queue, h.engine, by rw [h.rest]⟩
  obtain ⟨hv, hdone⟩ := drain_sameVisible (min s.rxQueue.count n.toNat) dst
    { s with rxIrqEnable := false } { t with rxIrqEnable := false } hs ht hirq
  simp only [readEffect, ← h.queue.count, ← hdone]
  split
  · exact ⟨hv.queue, hv.engine, by rw [hv.rest]; rfl⟩
  · exact hv

/-- Every command does the same on two such states. -/
theorem exec_command_sameVisible {i : Instr} (hp : (encode i).port = .command) {s t : State} (hs : s.rxQueue.Inv)
    (ht : t.rxQueue.Inv) (h : s.SameVisible t) : OutcomesRelated State.SameVisible (exec i s) (exec i t) := by
  cases i with
  | openLine baud b =>
    simp only [exec, execOpenLine]
    refine onCommandPort_sameVisible (fun s t hs ht h => ?_) hs ht h
    have hstate : t.state = s.state := by rw [h.rest]
    simp only [hstate]
    split
    · exact respond_keepsVisible _ _ s t hs ht h
    · exact openEffect_keepsVisible baud s t hs ht h
  | read dst n =>
    simp only [exec, execRead]
    refine onCommandPort_sameVisible (fun s t hs ht h => ?_) hs ht h
    have hstate : t.state = s.state := by rw [h.rest]
    simp only [hstate]
    split
    · exact respond_keepsVisible _ _ s t hs ht h
    · exact readEffect_keepsVisible dst n s t hs ht h
  | getCount a b =>
    simp only [exec, execGetCount]
    refine onCommandPort_sameVisible (fun s t hs ht h => ?_) hs ht h
    simp only [h.queue.count]
    exact respond_keepsVisible _ _ s t hs ht h
  | close a b =>
    simp only [exec, execClose]
    refine onCommandPort_sameVisible (keepsVisible_of_queues fun s q e => ?_) hs ht h
    dsimp only
    split <;> rfl
  | sendByte | sendString | sendArray =>
    simp only [exec, execSendByte, execSendString, execSendArray]
    refine onCommandPort_sameVisible (keepsVisible_of_queues fun s q e => ?_) hs ht h
    exact startSend_queues _ _ _ _ s q e
  | getLastError | getDropped | getStatus | reserved00 | reserved0BFF =>
    simp only [exec, execGetLastError, execGetDropped, execGetStatus, execReserved00, execReserved0BFF]
    exact onCommandPort_sameVisible (keepsVisible_of_queues fun _ _ _ => rfl) hs ht h
  | rxEvent | fifoIdle | fifoTryPush | fifoTryPop | fifoInit => cases hp

/-! #### The receive event and the FIFO engine instance -/

theorem pushOrDrop_keepsVisible (d : Byte) : KeepsVisible (pushOrDrop d) := by
  intro s t hs ht h
  obtain ⟨hq, hok⟩ := h.queue.tryPush hs ht d
  simp only [pushOrDrop, hok]
  split
  · exact ⟨hq, h.engine, by rw [h.rest]⟩
  · exact ⟨h.queue, h.engine, by rw [h.rest]⟩

theorem receiveEffect_keepsVisible (status : BitVec 10) (d : Byte) : KeepsVisible (receiveEffect status d) := by
  intro s t hs ht h
  have hlast : ({ s with lastError := classify status } : State).SameVisible { t with lastError := classify status } :=
    ⟨h.queue, h.engine, by rw [h.rest]⟩
  simp only [receiveEffect]
  split
  · exact hlast
  · exact pushOrDrop_keepsVisible d _ _ hs ht hlast

theorem exec_event_sameVisible (status : BitVec 10) (d : Byte) {s t : State} (hs : s.rxQueue.Inv) (ht : t.rxQueue.Inv)
    (h : s.SameVisible t) :
    OutcomesRelated State.SameVisible (exec (.rxEvent status d) s) (exec (.rxEvent status d) t) := by
  have hen : (t.rxIrqEnable && !t.faulted) = (s.rxIrqEnable && !s.faulted) := by rw [h.rest]
  simp only [exec, execRxEvent, hen]
  split
  · exact receiveEffect_keepsVisible status d _ _ hs ht ⟨h.queue, h.engine, by rw [h.rest]⟩
  · exact h

theorem onFifoPort_sameVisible (r : FifoRequest 8) {s t : State} (hs : s.fifoEngine.Inv) (ht : t.fifoEngine.Inv)
    (h : s.SameVisible t) : OutcomesRelated State.SameVisible (onFifoPort r s) (onFifoPort r t) := by
  have hdraws : t.draws = s.draws := by rw [h.rest]
  obtain ⟨hengine, hreply⟩ := h.engine.serve hs ht r (Config.freeData 8 s.draws)
  simp only [onFifoPort, hdraws, ← hreply]
  split
  · exact ⟨h.queue, h.engine, by rw [h.rest]⟩
  · exact ⟨h.queue, hengine, by rw [h.rest]⟩

theorem exec_fifo_sameVisible {i : Instr} (hp : (encode i).port = .fifo) {s t : State} (hs : s.fifoEngine.Inv)
    (ht : t.fifoEngine.Inv) (h : s.SameVisible t) : OutcomesRelated State.SameVisible (exec i s) (exec i t) := by
  cases i with
  | fifoIdle | fifoTryPush | fifoTryPop | fifoInit =>
    simp only [exec, execFifoIdle, execFifoTryPush, execFifoTryPop, execFifoInit]
    exact onFifoPort_sameVisible _ hs ht h
  | _ => cases hp

/-! #### The moves -/

theorem issueCommand_keepsVisible (w : BitVec 72) : KeepsVisible (issueCommand w) := by
  refine keepsVisible_of_queues fun s q e => ?_
  unfold issueCommand
  dsimp only
  split <;> rfl

theorem hostWrite_keepsVisible (a : Word) (v : Byte) : KeepsVisible (hostWrite a v) := by
  refine keepsVisible_of_queues fun s q e => ?_
  unfold hostWrite
  dsimp only
  split <;> rfl

theorem powerReset_keepsVisible : KeepsVisible State.powerReset := by
  intro s t _ _ h
  obtain ⟨q, e, hq, he, rfl⟩ := h.exists_queues
  exact ⟨hq.init, he, rfl⟩

/-- One move does the same on two such states. -/
theorem runMove_sameVisible (m : Move) {s t : State} (hs : s.Inv) (ht : t.Inv) (h : s.SameVisible t) :
    OutcomesRelated State.SameVisible (runMove m s) (runMove m t) := by
  have effect {f : State → State} (hf : KeepsVisible f) : (f s).SameVisible (f t) := hf s t hs.queue ht.queue h
  have hcmd : t.cmdPort = s.cmdPort := by rw [h.rest]
  have hrx : t.rxPort = s.rxPort := by rw [h.rest]
  have hfifo : t.fifoPort = s.fifoPort := by rw [h.rest]
  cases m with
  | issueCommand w => exact effect (issueCommand_keepsVisible w)
  | acceptCommand =>
    simp only [runMove, acceptCommand, hcmd]
    split
    · exact h
    · exact exec_command_sameVisible (port_command _) hs.queue ht.queue h
  | offerEvent w => exact effect (f := fun u => { u with rxPort := some w }) (keepsVisible_of_queues fun _ _ _ => rfl)
  | takeEvent =>
    simp only [runMove, takeEvent, hrx]
    split
    · exact h
    · exact exec_event_sameVisible _ _ hs.queue ht.queue h
  | setTxReady b => exact effect (f := fun u => { u with txReady := b }) (keepsVisible_of_queues fun _ _ _ => rfl)
  | transmit => exact effect (keepsVisible_of_queues transmitStep_queues)
  | hostWrite a v => exact effect (hostWrite_keepsVisible a v)
  | powerReset => exact effect powerReset_keepsVisible
  | requestFifo w =>
    exact effect (f := fun u => { u with fifoPort := some w }) (keepsVisible_of_queues fun _ _ _ => rfl)
  | serveFifo =>
    simp only [runMove, serveFifo, hfifo]
    split
    · exact h
    · exact exec_fifo_sameVisible (port_fifo _) hs.engine ht.engine h

/-- Settles O57: the two states have the same next move, and each move does the same on both. -/
theorem unqueuedStorageIsUnobservable : Obligations.UnqueuedStorageIsUnobservable := by
  unfold Obligations.UnqueuedStorageIsUnobservable
  intro s t hs ht h
  have hmoves : t.moves = s.moves := by rw [h.rest]
  cases hm : s.moves with
  | nil =>
    have hfault : t.faulted = s.faulted := by rw [h.rest]
    have haddr : t.faultAddr = s.faultAddr := by rw [h.rest]
    simp only [step, nextMove, hmoves, hm, hfault, haddr]
    split
    · rfl
    · exact h
  | cons m rest =>
    rw [step_cons hm, step_cons (hmoves.trans hm)]
    exact runMove_sameVisible m { hs with } { ht with } ⟨h.queue, h.engine, by rw [h.rest]⟩

end Sys2Proof.Machine
end

section
/-!
SUPPORT. Proofs of the statements of the family 20_memory.md: what an admitted and an unadmitted access of host memory do,
that the addresses of a buffer wrap and do not collide, and which steps write host memory.
-/

namespace Sys2Proof.Machine

/-! ### MemRead and MemWrite (20_memory.md R53) -/

theorem memWrite_admitted {s : State} {a : Word} (v : Byte) (h : s.admits a .write = true) :
    s.memWrite a v = some (s.setHostByte a v) :=
  if_pos h

theorem memRead_admitted {s : State} {a : Word} (h : s.admits a .read = true) :
    s.memRead a = some (s.hostByte a) :=
  if_pos h

/-- Settles O40: an admitted write lists the byte at its address, which keeps every other byte and the canonical form. -/
theorem memoryReadAfterWrite : Obligations.MemoryReadAfterWrite := by
  unfold Obligations.MemoryReadAfterWrite
  intro s a b v
  exact ⟨fun h => ⟨_, memWrite_admitted v h, memByte_memInsert s.mem a b v, memInsert_wf a v⟩,
    memWrite_eq_none.2, memRead_admitted, memRead_eq_none.2⟩

/-! ### Buffer addresses (20_memory.md R54) -/

theorem bufferAddr_toNat (base : Word) (i : Nat) : (bufferAddr base i).toNat = (base.toNat + i) % 2 ^ 32 := by
  rw [bufferAddr, BitVec.toNat_add, BitVec.toNat_ofNat, Nat.add_mod_mod]

/-- Settles O41, by the sum modulo 2^32 and the injectivity of offsets below it. -/
theorem bufferAddressesWrap : Obligations.BufferAddressesWrap := by
  unfold Obligations.BufferAddressesWrap
  exact fun base i j => ⟨bufferAddr_toNat base i, bufferAddr_inj⟩

/-! ### What writes host memory (20_memory.md R52, R55) -/

/-- Of the shapes a step can have, only READ's critical section and the host's write outside a command write host
memory. -/
theorem step_mem_writers {s t : State} (h : step s = .next t) (hne : t.mem ≠ s.mem) :
    (∃ w dst n, s.moves.head? = some .acceptCommand ∧ s.cmdPort = some w ∧ decode (.command w) = .read dst n ∧
      s.state = .opened ∧ s.send = .idle ∧ s.faulted = false) ∨
    (∃ a v, s.moves.head? = some (.hostWrite a v) ∧ s.cmdPort = none ∧ (s.send = .idle ∨ s.faulted = true)) := by
  cases step_shape h with
  | drained w dst n rest hm hp hd hi hf ho => exact .inl ⟨w, dst, n, head?_moves hm, hp, hd, ho, hi, hf⟩
  | hostWrote a v rest hm hp hs => exact .inr ⟨a, v, head?_moves hm, hp, hs⟩
  | _ => exact absurd rfl hne

/-- Neither writer of host memory is enabled while a send runs (44_transmit.md R186). -/
theorem step_mem_of_send_running {s t : State} (h : step s = .next t) (hs : s.send ≠ .idle)
    (hf : s.faulted = false) : t.mem = s.mem := by
  by_contra hne
  obtain ⟨w, dst, n, -, -, -, -, hi, -⟩ | ⟨a, v, -, -, hi | hstop⟩ := step_mem_writers h hne
  · exact hs hi
  · exact hs hi
  · simp [hf] at hstop

/-- Settles O42, from the two writers of host memory and what each needs of the send. -/
theorem hostMemoryWriters : Obligations.HostMemoryWriters := by
  unfold Obligations.HostMemoryWriters
  exact ⟨fun _ _ => step_mem_writers, fun _ _ => step_mem_of_send_running⟩

end Sys2Proof.Machine
end

section
/-!
SUPPORT. Proofs of the statements of the family 30_encoding.md: decoding and encoding, the operand and status bits without
effect, the held command, REOPEN, the FIFO rows, and what every step does to the responses and the output trace.
-/

namespace Sys2Proof

/-! ### Decoding (30_encoding.md R70, R71, R79) -/

/-- Whatever a word decodes to is well-formed: the range row is reached only past the assigned opcodes (R80). -/
theorem wf_decode (p : PortWord) : (decode p).wf = true := by
  cases p with
  | command w =>
    simp only [decode, decodeCommand]
    split
    case h_12 =>
      simp only [imp_false] at *
      exact decide_eq_true (by omega)
    all_goals rfl
  | event w => rfl
  | fifo w =>
    simp only [decode, decodeFifo]
    split <;> rfl

/-- Settles O1: the decoder reads the fields of a built word back, and well-formedness keeps the range row apart. -/
theorem decodeOfEncode : Obligations.DecodeOfEncode := by
  unfold Obligations.DecodeOfEncode
  exact fun _ => decode_encode

/-- Settles O2: a word is built from its fields, and its opcode chooses the row it decodes to. -/
theorem encodeOfDecode : Obligations.EncodeOfDecode := by
  unfold Obligations.EncodeOfDecode
  exact fun p => ⟨encode_decode p, wf_decode p⟩

/-- Settles O3, by decoding the nine words. -/
theorem writtenWordsDecode : Obligations.WrittenWordsDecode := by
  unfold Obligations.WrittenWordsDecode
  decide

/-! ### The opcode map, its fields as arithmetic (30_encoding.md R79) -/

theorem sendByteOperand_eq_ofNat (w : BitVec 72) :
    (cmdA w).extractLsb' 0 8 = BitVec.ofNat 8 (w.toNat / 2 ^ 8) ∧
      (cmdA w).extractLsb' 8 24 = BitVec.ofNat 24 (w.toNat / 2 ^ 16) := by
  rw [cmdA_eq_ofNat]
  constructor <;> apply BitVec.eq_of_toNat_eq <;>
    simp only [BitVec.extractLsb'_toNat, BitVec.toNat_ofNat, Nat.shiftRight_eq_div_pow] <;> omega

/-- Every opcode from 0x0B on is the range row's. -/
theorem decodeCommand_reserved {w : BitVec 72} (h : 0x0B ≤ (cmdOp w).toNat) :
    decodeCommand w = .reserved0BFF (cmdOp w) (cmdA w) (cmdB w) := by
  unfold decodeCommand
  split
  case h_12 => rfl
  all_goals omega

theorem decodeEvent_eq_ofNat (w : BitVec 18) :
    decodeEvent w = .rxEvent (BitVec.ofNat 10 (w.toNat / 2 ^ 8)) (BitVec.ofNat 8 w.toNat) := by
  simp [decodeEvent, BitVec.extractLsb', Nat.shiftRight_eq_div_pow]

/-- Settles O4: the opcode as a number chooses the row, and each operand is its field as arithmetic. -/
theorem opcodeMap : Obligations.OpcodeMap := by
  unfold Obligations.OpcodeMap
  refine ⟨fun w => ?_, decodeEvent_eq_ofNat⟩
  obtain ⟨hbyte, hhigh⟩ := sendByteOperand_eq_ofNat w
  simp only [← cmdOp_toNat, ← cmdA_eq_ofNat, ← cmdB_eq_ofNat, ← hbyte, ← hhigh, BitVec.ofNat_toNat, BitVec.setWidth_eq]
  refine ⟨?_, ?_, ?_, ?_, ?_, ?_, ?_, ?_, ?_, ?_, ?_, decodeCommand_reserved⟩ <;> intro h <;>
    simp only [decode, decodeCommand, h]

/-! ### Words that agree in their low bits (30_encoding.md R73) -/

/-- Two words that agree below bit `k` agree in every field below it. -/
theorem extractLsb'_eq_of_mod_eq {n k start len : Nat} {w w' : BitVec n} (hk : start + len ≤ k)
    (h : w.toNat % 2 ^ k = w'.toNat % 2 ^ k) : w.extractLsb' start len = w'.extractLsb' start len := by
  apply BitVec.eq_of_getLsbD_eq
  intro i hi
  have hbit := congrArg (Nat.testBit · (start + i)) h
  simp only [Nat.testBit_mod_two_pow, show start + i < k by omega, decide_true, Bool.true_and,
    BitVec.testBit_toNat] at hbit
  simp only [BitVec.getLsbD_extractLsb', hbit]

/-- SEND_BYTE's byte is a field of the word itself. -/
theorem sendByte_field (w : BitVec 72) : (cmdA w).extractLsb' 0 8 = w.extractLsb' 8 8 := by
  apply BitVec.eq_of_getLsbD_eq
  intro i hi
  simp [cmdA, hi, show i < 32 by omega]

end Sys2Proof

namespace Sys2Proof.Machine

/-! ### Operand bits and status bits without effect (30_encoding.md R73, R81) -/

/-- Settles O6: the opcode's field is always used, so both words decode to one row; where the row's meaning reads an
operand, the words agree in that field. -/
theorem ignoredOperandsHaveNoEffect : Obligations.IgnoredOperandsHaveNoEffect := by
  unfold Obligations.IgnoredOperandsHaveNoEffect
  intro w w' s op used h
  have hopn : op = (cmdOp w).toNat := (cmdOp_toNat w).symm
  have field (start len : Nat) (hk : start + len ≤ used) : w'.extractLsb' start len = w.extractLsb' start len :=
    extractLsb'_eq_of_mod_eq hk h.symm
  have hop : cmdOp w' = cmdOp w := field 0 8 (by simp only [used]; split_ifs <;> omega)
  simp only [decode, decodeCommand, hop]
  split
  case h_2 hn | h_6 hn =>
    have ha : cmdA w' = cmdA w := field 8 32 (by simp [used, hopn, hn])
    rw [ha]
    rfl
  case h_4 hn | h_7 hn =>
    have ha : cmdA w' = cmdA w := field 8 32 (by simp [used, hopn, hn])
    have hb : cmdB w' = cmdB w := field 40 32 (by simp [used, hopn, hn])
    rw [ha, hb]
  case h_5 hn =>
    rw [sendByte_field, sendByte_field, field 8 8 (by simp [used, hopn, hn])]
    rfl
  all_goals rfl

/-- The classification reads the five error bits of a status and no other. -/
theorem classify_congr {st st' : BitVec 10}
    (h : ∀ i, i ≠ 4 → i ≠ 5 → i ≠ 6 → i ≠ 7 → i ≠ 9 → st.getLsbD i = st'.getLsbD i) :
    classify st = classify st' := by
  have hPE : statusPE st = statusPE st' := by apply h <;> decide
  have hFE : statusFE st = statusFE st' := by apply h <;> decide
  have hNE : statusNE st = statusNE st' := by apply h <;> decide
  have hORE : statusORE st = statusORE st' := by apply h <;> decide
  have hLBD : statusLBD st = statusLBD st' := by apply h <;> decide
  simp only [classify, hPE, hFE, hNE, hORE, hLBD]

theorem exec_rxEvent_congr {st st' : BitVec 10} (h : classify st = classify st') (d : Byte) (s : State) :
    exec (.rxEvent st d) s = exec (.rxEvent st' d) s := by
  simp only [exec, execRxEvent, receiveEffect, h]

/-! ### A held command (30_encoding.md R72) -/

/-- Settles O9: a command is an effect at the command port, which holds it while it cannot be accepted. -/
theorem commandIsHeldWhileBusyOrFaulted : Obligations.CommandIsHeldWhileBusyOrFaulted := by
  unfold Obligations.CommandIsHeldWhileBusyOrFaulted
  intro i s hp h
  obtain ⟨effect, he⟩ := exec_onCommandPort hp
  have hr : s.ready = false := by
    rw [← Bool.not_eq_true, State.ready_iff]
    rintro ⟨hs, hf⟩
    rcases h with h | h
    · exact h hs
    · simp [hf] at h
  rw [he, onCommandPort_held hr]

/-! ### REOPEN (30_encoding.md R83) -/

/-- The two moves that bring a command to the empty port of a ready block and let it be accepted run its effect. -/
theorem run_command {i : Instr} {w : BitVec 72} {effect : State → State} {s : State} {rest : List Move}
    (heff : ∀ s, exec i s = onCommandPort s effect) (hwf : i.wf = true) (he : encode i = .command w)
    (hr : s.ready = true) (hp : s.cmdPort = none) (hm : s.moves = instrMoves i ++ rest) (n : Nat) :
    core.run (n + 2) s = core.run n (effect { s with moves := rest, cmdPort := none, awaiting := true }) := by
  simp only [instrMoves, he, List.cons_append, List.nil_append] at hm
  have hissue : step s = .next { s with moves := .acceptCommand :: rest, cmdPort := some w, awaiting := true } := by
    rw [step_cons hm, runMove, issueCommand_empty w (by exact hp)]
  rw [run_succ (n + 1) hissue, run_succ n]
  rw [step_cons rfl, runMove, acceptCommand_some rfl, ← he, decode_encode hwf, heff, onCommandPort_ready (by exact hr)]
  rfl

/-- CLOSE ends Closed with the interrupt off, from either state; its answer tells which it was. -/
theorem run_close {s : State} {rest : List Move} (a b : Word) (hr : s.ready = true) (hp : s.cmdPort = none)
    (hm : s.moves = instrMoves (.close a b) ++ rest) (n : Nat) :
    core.run (n + 2) s = core.run n
      { s with
        moves := rest, cmdPort := none, awaiting := false, state := .closed
        rxIrqEnable := if s.state = .opened then false else s.rxIrqEnable
        responses := s.responses ++ [responseWord (if s.state = .opened then .success else .notOpen) 0] } := by
  refine (run_command (fun s => by rw [exec, execClose]) rfl rfl hr hp hm n).trans (congrArg (core.run n) ?_)
  cases hst : s.state <;> rfl

/-- OPEN in Closed configures the line, resets the receive side and ends Open. -/
theorem run_openLine_closed {s : State} {rest : List Move} (baud b : Word) (hr : s.ready = true)
    (hp : s.cmdPort = none) (hc : s.state = .closed) (hm : s.moves = instrMoves (.openLine baud b) ++ rest) (n : Nat) :
    core.run (n + 2) s = core.run n
      { s with
        moves := rest, cmdPort := none, awaiting := false, trace := s.trace ++ [.configureLine baud]
        rxQueue := s.rxQueue.init, lastError := .success, dropped := 0, rxIrqEnable := true, state := .opened
        responses := s.responses ++ [responseWord .success 0] } := by
  refine (run_command (fun s => by rw [exec, execOpenLine]) rfl rfl hr hp hm n).trans (congrArg (core.run n) ?_)
  simp only [hc]
  rfl

/-- Settles O14: CLOSE ends Closed from either state, so the OPEN that follows takes its effect. -/
theorem reopenConfiguresAgain : Obligations.ReopenConfiguresAgain := by
  unfold Obligations.ReopenConfiguresAgain
  intro baud s rest hs hf hp hm
  have hr : s.ready = true := (State.ready_iff s).2 ⟨hs, hf⟩
  simp only [expandPseudo, List.flatMap_cons, List.flatMap_nil, List.append_nil, List.append_assoc] at hm
  rw [run_close 0 0 hr hp hm 2]
  refine (run_openLine_closed baud 0 (by exact hr) (by rfl) (by rfl) (by rfl) 0).trans ?_
  rw [hp, List.append_assoc]
  split <;> rfl

/-! ### The FIFO rows (30_encoding.md R78; log 10) -/

theorem exec_fifoTryPush (x : Byte) (s : State) :
    exec (.fifoTryPush x) s = .next
      { s with
        fifoPort := none, draws := s.draws + 1, fifoEngine := (s.fifoEngine.tryPush x).1
        fifoReply := some { fok := (s.fifoEngine.tryPush x).2, frdata := Config.freeData 8 s.draws } } := rfl

theorem exec_fifoTryPop (x : Byte) (s : State) :
    exec (.fifoTryPop x) s = .next
      { s with
        fifoPort := none, draws := s.draws + 1
        fifoEngine := (s.fifoEngine.tryPop (Config.freeData 8 s.draws)).1
        fifoReply := some (s.fifoEngine.tryPop (Config.freeData 8 s.draws)).2 } := rfl

/-- Settles O35: a row is its operation on the engine beside the block, which succeeds or is refused by the count alone. -/
theorem fifoRowsComplete : Obligations.FifoRowsComplete := by
  unfold Obligations.FifoRowsComplete
  intro x s
  refine ⟨rfl, ⟨_, rfl⟩, fun h => ⟨Config.freeData 8 s.draws, ?_⟩, fun h => ⟨Config.freeData 8 s.draws, ?_⟩,
    fun h => ⟨Config.freeData 8 s.draws, ?_⟩,
    fun h => ⟨(s.fifoEngine.storage[s.fifoEngine.readIndex]?).getD (Config.freeData 8 s.draws), ?_, fun hs => ?_⟩⟩
  · rw [exec_fifoTryPush, tryPush_full x h]
  · rw [exec_fifoTryPush, tryPush_not_full x h]
  · rw [exec_fifoTryPop, tryPop_empty _ h]
  · rw [exec_fifoTryPop, tryPop_not_empty _ h]
  · have hlt : s.fifoEngine.readIndex < s.fifoEngine.storage.length :=
      hs.engine.readIndex_lt.trans_eq hs.engine.storage_length.symm
    rw [List.getElem?_eq_getElem hlt, Option.getD_some]

/-! ### What a step does to the responses and the output trace (30_encoding.md R72, R74, R75, R77) -/

/-- READ's critical section emits no output event. -/
theorem readEffect_trace (dst n : Word) (s : State) : (readEffect dst n s).trace = s.trace := by
  obtain ⟨c, r, m, h | ⟨k, -, -, -, h⟩⟩ := readEffect_shape dst n s <;> rw [h]

/-- A step emits at most one output event: OPEN's, or the byte of a transmit step with `tx_ready` 1. -/
theorem step_trace {s t : State} (h : step s = .next t) :
    t.trace = s.trace ∨
      (∃ baud, t.trace = s.trace ++ [.configureLine baud] ∧ s.moves.head? = some .acceptCommand ∧
        s.state = .closed ∧ t.state = .opened) ∨
      (∃ c, t.trace = s.trace ++ [.writeData c] ∧ s.moves.head? = some .transmit ∧ s.send ≠ .idle ∧
        s.txReady = true) := by
  cases step_shape h with
  | opened w baud b rest hm _ _ _ _ hc => exact .inr (.inl ⟨baud, rfl, head?_moves hm, hc, rfl⟩)
  | endedWithByte c rest hm _ hs hr => exact .inr (.inr ⟨c, rfl, head?_moves hm, hs, hr⟩)
  | advancedString c a r rest hm _ hs hr => exact .inr (.inr ⟨c, rfl, head?_moves hm, by simp [hs], hr⟩)
  | advancedArray c a r rest hm _ hs hr => exact .inr (.inr ⟨c, rfl, head?_moves hm, by simp [hs], hr⟩)
  | drained w dst n rest => exact .inl (readEffect_trace dst n _)
  | _ => exact .inl rfl

/-- A step answers at most once, on accepting a command or on ending a send, with a value beside Success and 0 beside
one of three errors (R75, R220). -/
theorem step_responses {s t : State} (h : step s = .next t) :
    t.responses = s.responses ∨
      ∃ c v, t.responses = s.responses ++ [responseWord c v] ∧
        (c = .success ∨ (c = .invalidArgument ∨ c = .notOpen ∨ c = .alreadyOpen) ∧ v = 0) ∧
        t.awaiting = t.cmdPort.isSome ∧
        ((s.moves.head? = some .acceptCommand ∧ s.cmdPort ≠ none ∧ t.cmdPort = none ∧ t.send = .idle) ∨
         (s.moves.head? = some .transmit ∧ s.send ≠ .idle ∧ t.send = .idle)) := by
  cases step_shape h with
  | answered w c v rest hm hp hs _ hcv =>
    exact .inr ⟨c, v, rfl, hcv, rfl, .inl ⟨head?_moves hm, by simp [hp], rfl, hs⟩⟩
  | opened w _ _ rest hm hp _ hs | closed w _ _ rest hm hp _ hs =>
    exact .inr ⟨.success, 0, rfl, .inl rfl, rfl, .inl ⟨head?_moves hm, by simp [hp], rfl, hs⟩⟩
  | drained w dst n rest hm hp _ hs =>
    obtain ⟨c, r, m, he | ⟨k, -, -, -, he⟩⟩ := readEffect_shape dst n { s with moves := rest, cmdPort := none } <;>
      rw [he]
    · exact .inr ⟨.success, _, rfl, .inl rfl, rfl, .inl ⟨head?_moves hm, by simp [hp], rfl, hs⟩⟩
    · exact .inl rfl
  | ended rest hm _ hs | endedWithByte _ rest hm _ hs =>
    exact .inr ⟨.success, 0, rfl, .inl rfl, rfl, .inr ⟨head?_moves hm, hs, rfl⟩⟩
  | _ => exact .inl rfl

/-- A step that takes the command off the port answers it, starts its send, or stops the block. -/
theorem step_takes_command {s t : State} (h : step s = .next t) (hp : s.cmdPort ≠ none) (hp' : t.cmdPort = none) :
    (∃ r, t.responses = s.responses ++ [r]) ∨ t.send ≠ .idle ∨ t.faulted = true := by
  cases step_shape h with
  | answered | opened | closed => exact .inl ⟨_, rfl⟩
  | drained w dst n rest =>
    obtain ⟨c, r, m, he | ⟨k, -, -, -, he⟩⟩ := readEffect_shape dst n { s with moves := rest, cmdPort := none } <;>
      rw [he]
    · exact .inl ⟨_, rfl⟩
    · exact .inr (.inr rfl)
  | sendStarted => exact .inr (.inl (by simp))
  | issued w rest _ hn => exact absurd hn hp
  | _ => exact absurd hp' hp

/-- Settles O55, by what a step does to the trace, to the responses and to the command at the port. -/
theorem outputsGrowByRule : Obligations.OutputsGrowByRule := by
  unfold Obligations.OutputsGrowByRule
  refine fun s t h => ⟨step_trace h, (step_responses h).imp_right ?_, step_takes_command h⟩
  rintro ⟨c, v, hr, -, hrest⟩
  exact ⟨_, hr, hrest⟩

/-- A response a step adds has a code of at most 3, and its value is 0 unless the code is 0. -/
theorem step_response_code {s t : State} {r : BitVec 36} (h : step s = .next t)
    (hr : t.responses = s.responses ++ [r]) : r.toNat % 16 ≤ 0x3 ∧ (r.toNat % 16 ≠ 0 → r.toNat / 16 = 0) := by
  rcases step_responses h with hkept | ⟨c, v, hadd, hcv, -⟩
  · simp [hr] at hkept
  · obtain rfl : r = responseWord c v := by simpa using hr.symm.trans hadd
    obtain ⟨hcode, hvalue⟩ := responseWord_fields c v
    rw [hcode, hvalue]
    rcases hcv with rfl | ⟨rfl | rfl | rfl, rfl⟩ <;> simp [ResultCode.code]

/-- Settles O56, by the codes and values a step answers with. -/
theorem responsesCarryFourCodes : Obligations.ResponsesCarryFourCodes := by
  unfold Obligations.ResponsesCarryFourCodes
  exact fun s t r => step_response_code

/-- Settles O33: an event's step reads its status through the classification alone, and responses carry four codes. -/
theorem ignoredStatusBits : Obligations.IgnoredStatusBits := by
  unfold Obligations.IgnoredStatusBits
  exact ⟨fun st st' d s h => exec_rxEvent_congr (classify_congr h) d s,
    fun s t r h hr => (step_response_code h hr).1.trans (by decide)⟩

end Sys2Proof.Machine
end

section
/-!
SUPPORT. Proofs of the statements of the family 40_fifo_engine.md: what one request answers, that any requests since
FIFO_INIT are delivered in order, and that N pushes followed by N pops answer the pushed values.
-/

namespace Sys2Proof.Machine

variable {w : Nat} {q : Fifo w}

/-! ### One request at the engine's port (30_encoding.md R78, 40_fifo_engine.md R101 to R103) -/

theorem serve_idle (x d : BitVec w) : q.serve { fop := 0#2, fwdata := x } d = (q, none) := rfl

theorem serve_push (v d : BitVec w) :
    q.serve { fop := 1#2, fwdata := v } d = ((q.tryPush v).1, some { fok := (q.tryPush v).2, frdata := d }) := rfl

theorem serve_pop (x d : BitVec w) :
    q.serve { fop := 2#2, fwdata := x } d = ((q.tryPop d).1, some (q.tryPop d).2) := rfl

/-- Settles O34: a request is its operation, which succeeds or is refused by the count alone. -/
theorem fifoOperations : Obligations.FifoOperations := by
  unfold Obligations.FifoOperations
  intro w q x draw
  refine ⟨⟨none, rfl⟩, ⟨draw, rfl⟩, fun h => ⟨draw, ?_⟩, fun h => ⟨draw, ?_⟩, fun h => ⟨draw, ?_⟩, fun v h hv => ?_⟩
  · rw [serve_push, tryPush_full x h]
  · rw [serve_push, tryPush_not_full x h]
  · rw [serve_pop, tryPop_empty draw h]
  · rw [serve_pop, tryPop_not_empty draw h, hv, Option.getD_some]

/-! ### What the replies say was pushed and popped -/

theorem pushedValues_cons (r : FifoRequest w) (o : Option (FifoReply w)) (rs : List (FifoRequest w))
    (ps : List (Option (FifoReply w))) :
    pushedValues (r :: rs) (o :: ps) = pushedValues [r] [o] ++ pushedValues rs ps := by
  cases o with
  | none => simp [pushedValues]
  | some reply => by_cases h : r.fop = 1#2 ∧ reply.fok = true <;> simp [pushedValues, h]

theorem poppedValues_cons (r : FifoRequest w) (o : Option (FifoReply w)) (rs : List (FifoRequest w))
    (ps : List (Option (FifoReply w))) :
    poppedValues (r :: rs) (o :: ps) = poppedValues [r] [o] ++ poppedValues rs ps := by
  cases o with
  | none => simp [poppedValues]
  | some reply => by_cases h : r.fop = 2#2 ∧ reply.fok = true <;> simp [poppedValues, h]

/-! ### The law of the engine (40_fifo_engine.md R104) -/

theorem fop_cases : ∀ fop : BitVec 2, fop ≠ 3#2 → fop = 0#2 ∨ fop = 1#2 ∨ fop = 2#2 := by decide

/-- One request other than FIFO_INIT: what it pops leaves the front of the queued values, what it pushes joins their
back, and the read index advances by the pops. -/
theorem serve_delivers (hq : q.Inv) (r : FifoRequest w) (d : BitVec w) (hr : r.fop ≠ 3#2) :
    poppedValues [r] [(q.serve r d).2] ++ (q.serve r d).1.contents =
      q.contents ++ pushedValues [r] [(q.serve r d).2] ∧
    (q.serve r d).1.readIndex = (q.readIndex + (poppedValues [r] [(q.serve r d).2]).length) % q.capacity := by
  have hread := Nat.mod_eq_of_lt hq.readIndex_lt
  obtain ⟨fop, x⟩ := r
  obtain rfl | rfl | rfl := fop_cases fop hr
  · simp [serve_idle, poppedValues, pushedValues, hread]
  · rw [serve_push]
    by_cases hfull : q.count = q.capacity
    · simp [tryPush_full x hfull, poppedValues, pushedValues, hread]
    · rw [contents_tryPush hq x hfull, tryPush_not_full x hfull]
      simp [poppedValues, pushedValues, hread]
  · rw [serve_pop]
    by_cases hempty : q.count = 0
    · simp [tryPop_empty d hempty, poppedValues, pushedValues, hread]
    · rw [contents_tryPop hq d hempty, tryPop_not_empty d hempty]
      simp [poppedValues, pushedValues]

theorem Fifo.run_cons (draw : Nat → BitVec w) (r : FifoRequest w) (rs : List (FifoRequest w)) (q : Fifo w) :
    Fifo.run draw (r :: rs) q =
      ((Fifo.run draw rs (q.serve r (draw rs.length)).1).1,
        (q.serve r (draw rs.length)).2 :: (Fifo.run draw rs (q.serve r (draw rs.length)).1).2) := rfl

theorem Fifo.Inv.run (draw : Nat → BitVec w) (rs : List (FifoRequest w)) (hq : q.Inv) :
    (Fifo.run draw rs q).1.Inv := by
  induction rs generalizing q with
  | nil => exact hq
  | cons r rs ih => exact ih (hq.serve r _)

theorem run_capacity (draw : Nat → BitVec w) (rs : List (FifoRequest w)) (q : Fifo w) :
    (Fifo.run draw rs q).1.capacity = q.capacity := by
  induction rs generalizing q with
  | nil => rfl
  | cons r rs ih => exact (ih _).trans (serve_capacity r _ q)

/-- Requests other than FIFO_INIT, from any engine: what they pop, followed by what is left queued, is what was queued,
followed by what they push; and the read index advances by the pops. -/
theorem run_delivers (draw : Nat → BitVec w) (rs : List (FifoRequest w)) (hq : q.Inv) (hrs : ∀ r ∈ rs, r.fop ≠ 3#2) :
    poppedValues rs (Fifo.run draw rs q).2 ++ (Fifo.run draw rs q).1.contents =
      q.contents ++ pushedValues rs (Fifo.run draw rs q).2 ∧
    (Fifo.run draw rs q).1.readIndex =
      (q.readIndex + (poppedValues rs (Fifo.run draw rs q).2).length) % q.capacity := by
  induction rs generalizing q with
  | nil => simp [Fifo.run, poppedValues, pushedValues, Nat.mod_eq_of_lt hq.readIndex_lt]
  | cons r rs ih =>
    obtain ⟨hr, hrs⟩ := List.forall_mem_cons.mp hrs
    obtain ⟨hvalues, hread⟩ := serve_delivers hq r (draw rs.length) hr
    obtain ⟨hvalues', hread'⟩ := ih (hq.serve r (draw rs.length)) hrs
    rw [Fifo.run_cons, poppedValues_cons, pushedValues_cons]
    constructor
    · rw [List.append_assoc, hvalues', ← List.append_assoc, hvalues, List.append_assoc]
    · rw [hread', hread, serve_capacity, Nat.mod_add_mod, List.length_append, Nat.add_assoc]

/-- FIFO_INIT gives the invariant whatever the count and the indices were (R101). -/
theorem init_inv (h1 : 1 ≤ q.capacity) (h2 : q.capacity ≤ 2 ^ 32 - 1) (hlen : q.storage.length = q.capacity) :
    q.init.Inv where
  capacity_pos := h1
  capacity_le := h2
  count_le := Nat.zero_le _
  writeIndex_lt := h1
  readIndex_lt := h1
  storage_length := hlen
  writeIndex_eq := by simp

/-- Settles O36, from the law of a run; the write index is where the invariant puts it. -/
theorem fifoDeliversInOrder : Obligations.FifoDeliversInOrder := by
  unfold Obligations.FifoDeliversInOrder
  intro w draw q rs h1 h2 hlen hrs p pushed popped
  have hinit := init_inv h1 h2 hlen
  have hinv : p.1.Inv := hinit.run draw rs
  have hcap : p.1.capacity = q.capacity := run_capacity draw rs q.init
  obtain ⟨hvalues, hread⟩ := run_delivers draw rs hinit hrs
  replace hvalues : popped ++ p.1.contents = pushed := by simpa using hvalues
  replace hread : p.1.readIndex = popped.length % q.capacity := by simpa using hread
  have hcount : p.1.count + popped.length = pushed.length := by simp [← hvalues, Nat.add_comm]
  refine ⟨hvalues, hcount, hcap ▸ hinv.count_le, hcap, ?_, hread⟩
  rw [hinv.writeIndex_eq, hcap, hread, Nat.mod_add_mod, Nat.add_comm, hcount]

/-! ### Pushes, then pops (40_fifo_engine.md R104, 90_conflicts.md C9) -/

/-- Requests that all succeed and empty the engine, their pops answering `vs` in order. -/
structure EmptiesWith (draw : Nat → BitVec w) (rs : List (FifoRequest w)) (q : Fifo w)
    (vs : List (BitVec w)) : Prop where
  popped : poppedValues rs (Fifo.run draw rs q).2 = vs
  empty : (Fifo.run draw rs q).1.count = 0
  succeed : ∀ reply ∈ (Fifo.run draw rs q).2, ∃ d, reply = some { fok := true, frdata := d }

variable {draw : Nat → BitVec w} {rs : List (FifoRequest w)} {vs : List (BitVec w)}

/-- A push that finds room, in front of such requests, answers no value. -/
theorem EmptiesWith.push {v : BitVec w} (hne : q.count ≠ q.capacity) (h : EmptiesWith draw rs (q.tryPush v).1 vs) :
    EmptiesWith draw ({ fop := 1#2, fwdata := v } :: rs) q vs where
  popped := by simpa [Fifo.run_cons, serve_push, poppedValues] using h.popped
  empty := h.empty
  succeed := List.forall_mem_cons.mpr ⟨⟨_, by rw [serve_push, tryPush_not_full v hne]⟩, h.succeed⟩

/-- A pop of a queue that holds a value, in front of such requests, answers the value it takes. -/
theorem EmptiesWith.pop {x : BitVec w} (hne : q.count ≠ 0)
    (h : EmptiesWith draw rs (q.tryPop (draw rs.length)).1 vs) :
    EmptiesWith draw ({ fop := 2#2, fwdata := x } :: rs) q ((q.tryPop (draw rs.length)).2.frdata :: vs) where
  popped := by
    have hfok : (q.tryPop (draw rs.length)).2.fok = true := by rw [tryPop_not_empty _ hne]
    simpa [Fifo.run_cons, serve_pop, poppedValues, hfok] using h.popped
  empty := h.empty
  succeed := List.forall_mem_cons.mpr ⟨⟨_, by rw [serve_pop, tryPop_not_empty _ hne]⟩, h.succeed⟩

/-- As many pops as there are queued values answer them all, oldest first. -/
theorem pops_emptiesWith (draw : Nat → BitVec w) (x : BitVec w) {n : Nat} (hq : q.Inv) (hn : q.count = n) :
    EmptiesWith draw (List.replicate n { fop := 2#2, fwdata := x }) q q.contents := by
  induction n generalizing q with
  | zero =>
    rw [contents_of_count_zero hn]
    exact ⟨rfl, hn, by simp [Fifo.run]⟩
  | succ n ih =>
    have hne : q.count ≠ 0 := by omega
    rw [contents_tryPop hq _ hne]
    exact (ih (hq.tryPop _) (by simp [tryPop_not_empty _ hne, hn])).pop hne

/-- Pushes an engine has room for, then as many pops as values are queued by then: the pops answer what was queued and
then what was pushed. -/
theorem pushes_then_pops_emptiesWith (draw : Nat → BitVec w) (x : BitVec w) {n : Nat} (vs : List (BitVec w))
    (hq : q.Inv) (hn : q.count + vs.length = n) (hroom : n ≤ q.capacity) :
    EmptiesWith draw
      (vs.map (fun v => { fop := 1#2, fwdata := v }) ++ List.replicate n { fop := 2#2, fwdata := x }) q
      (q.contents ++ vs) := by
  induction vs generalizing q with
  | nil => simpa using pops_emptiesWith draw x hq hn
  | cons v vs ih =>
    have hne : q.count ≠ q.capacity := by rw [List.length_cons] at hn; omega
    rw [← List.singleton_append, ← List.append_assoc, ← contents_tryPush hq v hne]
    refine (ih (hq.tryPush v) ?_ ?_).push hne
    · simpa [tryPush_not_full v hne, Nat.add_assoc, Nat.add_comm 1] using hn
    · simpa [tryPush_not_full v hne] using hroom

/-- Settles O37: an empty engine has nothing queued before the pushes and room for as many as its capacity. -/
theorem fifoPushesThenPops : Obligations.FifoPushesThenPops := by
  unfold Obligations.FifoPushesThenPops
  intro w draw q vs x hq hempty hroom
  obtain ⟨hpopped, hcount, hok⟩ := pushes_then_pops_emptiesWith draw x vs hq (by rw [hempty, Nat.zero_add]) hroom
  rw [contents_of_count_zero hempty, List.nil_append] at hpopped
  exact ⟨hpopped, hcount, hok⟩

end Sys2Proof.Machine
end

section
/-!
SUPPORT. Proofs of the statements of the family 41_line_control.md: what OPEN and CLOSE do in each lifecycle state, and what
a READ, an OPEN and two queries answer after a CLOSE.
-/

namespace Sys2Proof.Machine

variable {s : State}

/-! ### Accepted commands, by the lifecycle state (41_line_control.md R121, R124; 43_drain.md R160; 45_query.md) -/

theorem exec_openLine_closed (hr : s.ready = true) (hc : s.state = .closed) (baud b : Word) :
    exec (.openLine baud b) s = .next (openEffect baud s.takeCommand) := by
  simp only [exec, execOpenLine, onCommandPort_ready hr, State.takeCommand_state, hc]

theorem exec_openLine_opened (hr : s.ready = true) (ho : s.state = .opened) (baud b : Word) :
    exec (.openLine baud b) s = .next (s.takeCommand.respond .alreadyOpen 0) := by
  simp only [exec, execOpenLine, onCommandPort_ready hr, State.takeCommand_state, ho]

theorem exec_close_opened (hr : s.ready = true) (ho : s.state = .opened) (a b : Word) :
    exec (.close a b) s =
      .next (({ s.takeCommand with rxIrqEnable := false, state := .closed } : State).respond .success 0) := by
  simp only [exec, execClose, onCommandPort_ready hr, State.takeCommand_state, ho]

theorem exec_close_closed (hr : s.ready = true) (hc : s.state = .closed) (a b : Word) :
    exec (.close a b) s = .next (s.takeCommand.respond .notOpen 0) := by
  simp only [exec, execClose, onCommandPort_ready hr, State.takeCommand_state, hc]

theorem exec_read_closed (hr : s.ready = true) (hc : s.state = .closed) (dst n : Word) :
    exec (.read dst n) s = .next (s.takeCommand.respond .notOpen 0) := by
  simp only [exec, execRead, onCommandPort_ready hr, State.takeCommand_state, readCheck, hc, if_true]

theorem exec_getDropped (hr : s.ready = true) (a b : Word) :
    exec (.getDropped a b) s = .next (s.takeCommand.respond .success s.dropped) := by
  simp only [exec, execGetDropped, onCommandPort_ready hr, State.takeCommand_dropped]

theorem exec_getLastError (hr : s.ready = true) (a b : Word) :
    exec (.getLastError a b) s = .next (s.takeCommand.respond .success (s.lastError.code.zeroExtend 32)) := by
  simp only [exec, execGetLastError, onCommandPort_ready hr, State.takeCommand_lastError]

/-! ### OPEN and CLOSE -/

/-- Settles O12: an accepted OPEN resets the receive side in Closed, and only answers in Open. -/
theorem openResult : Obligations.OpenResult := by
  unfold Obligations.OpenResult
  refine fun baud b s => ⟨rfl, fun hs hf => ?_⟩
  have hr : s.ready = true := (State.ready_iff s).2 ⟨hs, hf⟩
  exact ⟨fun hc => ⟨false, exec_openLine_closed hr hc baud b⟩, fun ho => ⟨false, exec_openLine_opened hr ho baud b⟩⟩

/-- Settles O13: an accepted CLOSE leaves a ready block, Closed, with its drop count and last error, so the commands that
follow take their effect in Closed. -/
theorem closeResult : Obligations.CloseResult := by
  unfold Obligations.CloseResult
  refine fun a b s => ⟨rfl, fun hs hf => ?_⟩
  have hr : s.ready = true := (State.ready_iff s).2 ⟨hs, hf⟩
  refine ⟨fun ho => ?_, fun hc => ⟨false, exec_close_closed hr hc a b⟩⟩
  exact ⟨_, false, exec_close_opened hr ho a b, rfl, exec_read_closed (by exact hr) rfl,
    fun baud b' => ⟨_, exec_openLine_closed (by exact hr) rfl baud b', rfl⟩,
    fun x y => ⟨_, exec_getDropped (by exact hr) x y, rfl⟩,
    fun x y => ⟨_, exec_getLastError (by exact hr) x y, rfl⟩⟩

end Sys2Proof.Machine
end

section
/-!
SUPPORT. Proofs of the statements of the family 42_receive.md: the classification of a status, and what a receive event
does where it is enabled and where it is not.
-/

namespace Sys2Proof.Machine

variable {status : BitVec 10} {d : Byte} {s : State}

/-! ### The classification (42_receive.md R143; 00_scope.md R14) -/

/-- Settles O29: the nested conditions, each clause with the outcomes that lead to its own. -/
theorem classificationPrecedence : Obligations.ClassificationPrecedence := by
  unfold Obligations.ClassificationPrecedence
  intro s
  refine ⟨fun hFE => ?_, fun hFE hPE => ?_, fun hFE hPE hLBD => ?_, fun hFE hPE hLBD hNE => ?_,
    fun hFE hPE hLBD hNE hORE => ?_, fun hFE hPE hLBD hNE hORE => ?_⟩ <;>
    simp only [classify, statusFE, statusPE, statusLBD, statusNE, statusORE, reduceIte, Bool.false_eq_true, *]

theorem ResultCode.isLineLevel_iff {e : ResultCode} :
    e.isLineLevel = true ↔
      e = .framingError ∨ e = .parityError ∨ e = .lineBreakError ∨ e = .noiseError := by
  cases e <;> simp [ResultCode.isLineLevel]

/-! ### The handler's effect, one equation for each case (42_receive.md R142, R145, R146) -/

theorem receiveEffect_lineLevel (hl : (classify status).isLineLevel = true) :
    receiveEffect status d s = { s with lastError := classify status } := by
  simpa [hl] using receiveEffect_cases status d s

theorem receiveEffect_push (hl : (classify status).isLineLevel = false) (hc : s.rxQueue.count ≠ s.rxQueue.capacity) :
    receiveEffect status d s = { s with lastError := classify status, rxQueue := (s.rxQueue.tryPush d).1 } := by
  simpa [hl, hc] using receiveEffect_cases status d s

theorem receiveEffect_drop (hl : (classify status).isLineLevel = false) (hc : s.rxQueue.count = s.rxQueue.capacity) :
    receiveEffect status d s = { s with lastError := classify status, dropped := satInc s.dropped } := by
  simpa [hl, hc] using receiveEffect_cases status d s

/-- The drop count stays at its largest value once it is there (00_scope.md R9). -/
theorem satInc_word (v : Word) : satInc v = if v = 0xFFFFFFFF then 0xFFFFFFFF else v + 1 := by
  unfold satInc
  split_ifs with hlt heq heq
  · subst heq
    exact absurd hlt (by decide)
  · rfl
  · exact heq
  · exact absurd (BitVec.eq_of_toNat_eq (show v.toNat = 0xFFFFFFFF by have := v.isLt; omega)) heq

/-! ### The event -/

/-- Where it is not enabled the event changes nothing: the offer stays with the device (42_receive.md R140). -/
theorem exec_rxEvent_not_enabled (status : BitVec 10) (d : Byte) (h : s.rxIrqEnable = false ∨ s.faulted = true) :
    exec (.rxEvent status d) s = .next s := by
  have hoff : (s.rxIrqEnable && !s.faulted) = false := by
    rcases h with h | h <;> simp [h]
  simp only [exec, execRxEvent, hoff, Bool.false_eq_true, if_false]

/-- Settles O30: the event is the handler's effect on the state whose offer is taken, by the byte's three fates. -/
theorem rxEventEffect : Obligations.RxEventEffect := by
  unfold Obligations.RxEventEffect
  intro status d s hi hf
  rw [exec_rxEvent_enabled hi hf]
  refine ⟨rfl, fun hbad => ?_, fun hgood => ?_⟩
  · rw [receiveEffect_lineLevel (ResultCode.isLineLevel_iff.2 hbad)]
  · have hl : (classify status).isLineLevel = false := by
      rcases hgood with h | h <;> rw [h] <;> rfl
    refine ⟨fun hroom => ?_, fun hfull => ?_⟩
    · rw [receiveEffect_push hl (by exact hroom), tryPush_not_full d (by exact hroom)]
    · rw [receiveEffect_drop hl (by exact hfull), satInc_word]

/-- Settles O31: in each case of the handler's effect the other fields are those of the state before. -/
theorem rxEventTouchesOnly : Obligations.RxEventTouchesOnly := by
  unfold Obligations.RxEventTouchesOnly
  intro status d s hi hf
  refine ⟨_, exec_rxEvent_enabled hi hf, ?_⟩
  rcases receiveEffect_cases status d { s with rxPort := none } with ⟨-, he⟩ | ⟨-, -, he⟩ | ⟨-, -, he⟩ <;> rw [he]

/-- Settles O32: the enabling condition needs the interrupt enabled and the block not faulted. -/
theorem rxEventNotEnabled : Obligations.RxEventNotEnabled := by
  unfold Obligations.RxEventNotEnabled
  exact fun status d _ => exec_rxEvent_not_enabled status d

end Sys2Proof.Machine
end

section
/-!
SUPPORT. Proofs of the statements of the family 43_drain.md: the answers of READ's checks, the drain that completes and the
one that a HostBusFault stops, and a drain and a receive event in either order.
-/

namespace Sys2Proof.Machine

variable {s : State} {dst n : Word} {status : BitVec 10} {d : Byte}

/-! ### The checks (43_drain.md R160) -/

theorem exec_read_zeroLength (hr : s.ready = true) (ho : s.state = .opened) (dst : Word) :
    exec (.read dst 0) s = .next (s.takeCommand.respond .success 0) := by
  simp only [exec, execRead, onCommandPort_ready hr, State.takeCommand_state, readCheck, ho, reduceCtorEq, if_false,
    if_true]

theorem exec_read_nullDestination (hr : s.ready = true) (ho : s.state = .opened) (hn : n ≠ 0) :
    exec (.read 0 n) s = .next (s.takeCommand.respond .invalidArgument 0) := by
  simp only [exec, execRead, onCommandPort_ready hr, State.takeCommand_state, readCheck, ho, reduceCtorEq, if_false,
    if_neg hn, isNull, beq_self_eq_true, if_true]

/-- Settles O18: each check answers the state whose command is taken, which leaves no command to wait for. -/
theorem readChecks : Obligations.ReadChecks := by
  unfold Obligations.ReadChecks
  intro dst n s hs hf
  have hr : s.ready = true := (State.ready_iff s).2 ⟨hs, hf⟩
  refine ⟨fun hc => ⟨false, exec_read_closed hr hc dst n⟩, fun ho hn => ⟨false, ?_⟩, fun ho hn hd => ⟨false, ?_⟩⟩
  · subst hn
    exact exec_read_zeroLength hr ho dst
  · subst hd
    exact exec_read_nullDestination hr ho hn

/-! ### The bytes a drain writes (43_drain.md R162) -/

/-- The i-th oldest queued value stands i entries after the read index (10_state.md R33). -/
theorem storage_eq_contents {w : Nat} {q : Fifo w} (hq : q.Inv) {i : Nat} (hi : i < q.count) :
    q.storage[(q.readIndex + i) % q.capacity]? = q.contents[i]? := by
  have hlt : (q.readIndex + i) % q.capacity < q.storage.length := by
    rw [hq.storage_length]
    exact Nat.mod_lt _ hq.capacity_pos
  simp [Fifo.contents, hi, List.getElem?_eq_getElem hlt]

/-- The k oldest queued bytes, written at a destination, stand there in order. -/
theorem memByte_drained_inside {q : Fifo 8} (hq : q.Inv) {k : Nat} (hk : k ≤ q.count) (m : Memory) (dst : Word) :
    ∀ i < k, q.storage[(q.readIndex + i) % q.capacity]? =
      some (memByte (writeBytes m dst (q.contents.take k)) (bufferAddr dst i)) := by
  intro i hi
  have hlen : (q.contents.take k).length = k := by rw [List.length_take, contents_length, Nat.min_eq_left hk]
  have hcap := hq.count_le.trans hq.capacity_le
  rw [storage_eq_contents hq (hi.trans_le hk), memByte_writeBytes_inside (by omega) (hi.trans_eq hlen.symm),
    List.getElem_take]
  exact List.getElem?_eq_getElem _

/-- Writing k bytes at most leaves every address beside the k of the destination as it was. -/
theorem memByte_drained_outside {k : Nat} (vs : List Byte) (m : Memory) (dst a : Word)
    (ha : ∀ i < k, a ≠ bufferAddr dst i) : memByte (writeBytes m dst (vs.take k)) a = memByte m a :=
  memByte_writeBytes_outside fun i hi => ha i (hi.trans_le (List.length_take_le k vs))

/-! ### The drain (43_drain.md R161, R164) -/

/-- A READ past its checks, with every touched byte admitted, is its command taken and its drain done. -/
theorem exec_read_admitted (hq : s.rxQueue.Inv) (hs : s.send = .idle) (hf : s.faulted = false)
    (ho : s.state = .opened) (hn : n ≠ 0) (hd : dst ≠ 0)
    (h : ∀ i < min s.rxQueue.count n.toNat, s.admits (bufferAddr dst i) .write = true) :
    exec (.read dst n) s = .next
      (({ s.takeCommand with
          rxQueue := popN (min s.rxQueue.count n.toNat) s.rxQueue
          mem := writeBytes s.mem dst (s.rxQueue.contents.take (min s.rxQueue.count n.toNat))
          rxIrqEnable := true } : State).respond .success (BitVec.ofNat 32 (min s.rxQueue.count n.toNat))) := by
  rw [exec_read_drains hs hf ho hn hd, readEffect_admitted (by exact hq) (by exact h)]
  rfl

/-- The invariant has the receive interrupt enabled on an Open block that is not faulted (10_state.md R27). -/
theorem State.Inv.rxIrqEnable_of_opened (hi : s.Inv) (ho : s.state = .opened) (hf : s.faulted = false) :
    s.rxIrqEnable = true := by
  rw [hi.irq, ho, hf]
  rfl

/-- Settles O19: the drain done; the interrupt it enables again was enabled before. -/
theorem readDrains : Obligations.ReadDrains := by
  unfold Obligations.ReadDrains
  rintro dst maxLength s n hi hs hf ho hn hd rfl h
  refine ⟨_, ?_, memByte_drained_inside hi.queue (Nat.min_le_left _ _) s.mem dst, memByte_drained_outside _ s.mem dst⟩
  rw [exec_read_admitted hi.queue hs hf ho hn hd h, hi.rxIrqEnable_of_opened ho hf]
  rfl

/-- Settles O20: the drain stopped at byte k has popped one byte more than it has written. -/
theorem readFaultsMidway : Obligations.ReadFaultsMidway := by
  unfold Obligations.ReadFaultsMidway
  intro dst maxLength s k hi hs hf ho hd hk h hbad
  have hn : maxLength ≠ 0 := by
    rintro rfl
    simp at hk
  refine ⟨_, ?_, memByte_drained_inside hi.queue (by omega) s.mem dst, memByte_drained_outside _ s.mem dst⟩
  rw [exec_read_drains hs hf ho hn hd, readEffect_faulted (by exact hi.queue) (by exact hk) (by exact h) (by exact hbad)]
  rfl

/-! ### A drain and a receive event (43_drain.md R163) -/

/-- An enabled event with a good byte, the queue not full, pushes the byte (42_receive.md R142). -/
theorem exec_rxEvent_push (hi : s.rxIrqEnable = true) (hf : s.faulted = false)
    (hl : (classify status).isLineLevel = false) (hroom : s.rxQueue.count ≠ s.rxQueue.capacity) :
    exec (.rxEvent status d) s = .next
      { s with rxPort := none, lastError := classify status, rxQueue := (s.rxQueue.tryPush d).1 } := by
  rw [exec_rxEvent_enabled hi hf, receiveEffect_push hl (by exact hroom)]

/-- Settles O21: a drain leaves room for the byte and the interrupt enabled; a pushed byte is queued last, where the drain
that follows finds it. -/
theorem drainAndReceiveInEitherOrder : Obligations.DrainAndReceiveInEitherOrder := by
  unfold Obligations.DrainAndReceiveInEitherOrder
  intro dst n status d s hi hs hf ho hn hd hl hroom h
  have hq := hi.queue
  constructor
  · have hroom' : (popN (min s.rxQueue.count n.toNat) s.rxQueue).count ≠ s.rxQueue.capacity := by
      simp only [popN]
      omega
    refine ⟨_, _, exec_read_admitted hq hs hf ho hn hd fun i hlt => h i (by omega),
      exec_rxEvent_push rfl (by exact hf) hl (by exact hroom'), rfl, ?_⟩
    exact (contents_tryPush (hq.popN (Nat.min_le_left _ _)) d hroom').trans (by rw [contents_popN])
  · have hne := hroom.ne
    have hcount : (s.rxQueue.tryPush d).1.count = s.rxQueue.count + 1 := by rw [tryPush_not_full d hne]
    refine ⟨_, _, exec_rxEvent_push (hi.rxIrqEnable_of_opened ho hf) hf hl hne,
      exec_read_admitted (hq.tryPush d) (by exact hs) (by exact hf) (by exact ho) hn hd
        fun i hlt => h i (hlt.trans_eq (by rw [hcount])), hcount, rfl, ?_⟩
    rw [← hcount, ← contents_tryPush hq d hne]
    exact contents_popN _ _

end Sys2Proof.Machine
end

section
/-!
SUPPORT. Proofs of the statements of the family 44_transmit.md: the checks of the sends and the Busy values they enter, the
transmit step of each kind of send, and a whole SEND_ARRAY and SEND_STRING from the command to the response.
-/

namespace Sys2Proof.Machine

variable {s : State} {st : Lifecycle} {rest : List Move} {src addr n r : Word} {e : ResultCode}

/-! ### The checks, each with what it answers (44_transmit.md R180) -/

theorem sendByteCheck_closed (hc : st = .closed) : sendByteCheck st = some .notOpen := if_pos hc

theorem sendByteCheck_opened (ho : st = .opened) : sendByteCheck st = none := by
  subst ho
  rfl

theorem sendStringCheck_closed (hc : st = .closed) (src : Word) : sendStringCheck st src = some .notOpen := if_pos hc

theorem sendStringCheck_null (ho : st = .opened) : sendStringCheck st 0 = some .invalidArgument := by
  subst ho
  rfl

theorem sendStringCheck_opened (ho : st = .opened) (hsrc : src ≠ 0) : sendStringCheck st src = none := by
  simp only [sendStringCheck, isNull, beq_iff_eq, ho, reduceCtorEq, if_false, if_neg hsrc]

theorem sendArrayCheck_closed (hc : st = .closed) (src n : Word) : sendArrayCheck st src n = some .notOpen := if_pos hc

theorem sendArrayCheck_null (ho : st = .opened) (n : Word) : sendArrayCheck st 0 n = some .invalidArgument := by
  subst ho
  rfl

theorem sendArrayCheck_zeroLength (ho : st = .opened) (hsrc : src ≠ 0) :
    sendArrayCheck st src 0 = some .invalidArgument := by
  simp only [sendArrayCheck, isNull, beq_iff_eq, ho, reduceCtorEq, if_false, if_neg hsrc, if_true]

theorem sendArrayCheck_opened (ho : st = .opened) (hsrc : src ≠ 0) (hn : n ≠ 0) : sendArrayCheck st src n = none := by
  simp only [sendArrayCheck, isNull, beq_iff_eq, ho, reduceCtorEq, if_false, if_neg hsrc, if_neg hn]

/-! ### The command steps (44_transmit.md R180 to R183) -/

theorem exec_sendByte_stopped (hr : s.ready = true) (hc : sendByteCheck s.state = some e) (v : Byte) (hi : BitVec 24)
    (b : Word) : exec (.sendByte v hi b) s = .next (s.takeCommand.respond e 0) := by
  simp only [exec, execSendByte, onCommandPort_ready hr, State.takeCommand_state, hc, startSend]

theorem exec_sendByte_accepted (hr : s.ready = true) (hc : sendByteCheck s.state = none) (v : Byte) (hi : BitVec 24)
    (b : Word) :
    exec (.sendByte v hi b) s = .next { s.takeCommand with send := .busy .byte (v.zeroExtend 32) 1 } := by
  simp only [exec, execSendByte, onCommandPort_ready hr, State.takeCommand_state, hc, startSend]

theorem exec_sendString_stopped (hr : s.ready = true) (hc : sendStringCheck s.state src = some e) (b : Word) :
    exec (.sendString src b) s = .next (s.takeCommand.respond e 0) := by
  simp only [exec, execSendString, onCommandPort_ready hr, State.takeCommand_state, hc, startSend]

theorem exec_sendString_accepted (hr : s.ready = true) (hc : sendStringCheck s.state src = none) (b : Word) :
    exec (.sendString src b) s = .next { s.takeCommand with send := .busy .string src 0 } := by
  simp only [exec, execSendString, onCommandPort_ready hr, State.takeCommand_state, hc, startSend]

theorem exec_sendArray_stopped (hr : s.ready = true) (hc : sendArrayCheck s.state src n = some e) :
    exec (.sendArray src n) s = .next (s.takeCommand.respond e 0) := by
  simp only [exec, execSendArray, onCommandPort_ready hr, State.takeCommand_state, hc, startSend]

theorem exec_sendArray_accepted (hr : s.ready = true) (hc : sendArrayCheck s.state src n = none) :
    exec (.sendArray src n) s = .next { s.takeCommand with send := .busy .array src n } := by
  simp only [exec, execSendArray, onCommandPort_ready hr, State.takeCommand_state, hc, startSend]

/-- Settles O22: the first failing check answers the state whose command is taken, which leaves no command to wait for. -/
theorem sendChecks : Obligations.SendChecks := by
  unfold Obligations.SendChecks
  intro s hs hf
  have hr : s.ready = true := (State.ready_iff s).2 ⟨hs, hf⟩
  constructor
  · rintro i hc (⟨v, hi, b, rfl⟩ | ⟨src, b, rfl⟩ | ⟨src, n, rfl⟩)
    · exact ⟨false, exec_sendByte_stopped hr (sendByteCheck_closed hc) v hi b⟩
    · exact ⟨false, exec_sendString_stopped hr (sendStringCheck_closed hc src) b⟩
    · exact ⟨false, exec_sendArray_stopped hr (sendArrayCheck_closed hc src n)⟩
  · rintro i ho (⟨b, rfl⟩ | ⟨n, rfl⟩ | ⟨src, hsrc, rfl⟩)
    · exact ⟨false, exec_sendString_stopped hr (sendStringCheck_null ho) b⟩
    · exact ⟨false, exec_sendArray_stopped hr (sendArrayCheck_null ho n)⟩
    · exact ⟨false, exec_sendArray_stopped hr (sendArrayCheck_zeroLength ho hsrc)⟩

theorem byte_zeroExtend_eq_append (v : Byte) : v.zeroExtend 32 = 0#24 ++ v := by
  have happend : (0#24 ++ v).toNat = v.toNat := (BitVec.toNat_append 0#24 v).trans (by simp)
  exact BitVec.eq_of_toNat_eq ((BitVec.toNat_setWidth_of_le (by decide)).trans happend.symm)

/-- Settles O23: with every check passed the command step enters Busy, and does nothing beside taking the command. -/
theorem sendsBecomeBusy : Obligations.SendsBecomeBusy := by
  unfold Obligations.SendsBecomeBusy
  intro s hs hf ho
  have hr : s.ready = true := (State.ready_iff s).2 ⟨hs, hf⟩
  refine ⟨fun v hi b => ?_, fun src b hsrc => exec_sendString_accepted hr (sendStringCheck_opened ho hsrc) b,
    fun src n hsrc hn => exec_sendArray_accepted hr (sendArrayCheck_opened ho hsrc hn)⟩
  rw [← byte_zeroExtend_eq_append]
  exact exec_sendByte_accepted hr (sendByteCheck_opened ho) v hi b

/-! ### The transmit step, by the kind of the send (44_transmit.md R181 to R186) -/

theorem step_transmit_byte (hm : s.moves = .transmit :: rest) (hf : s.faulted = false)
    (hs : s.send = .busy .byte addr r) : step s = .next (transmitByte addr { s with moves := rest }) := by
  simp only [step_cons hm, runMove, transmitStep, hf, hs, Bool.false_eq_true, if_false]

theorem step_transmit_string (hm : s.moves = .transmit :: rest) (hf : s.faulted = false)
    (hs : s.send = .busy .string addr r) : step s = .next (transmitString addr r { s with moves := rest }) := by
  simp only [step_cons hm, runMove, transmitStep, hf, hs, Bool.false_eq_true, if_false]

theorem step_transmit_array (hm : s.moves = .transmit :: rest) (hf : s.faulted = false)
    (hs : s.send = .busy .array addr r) : step s = .next (transmitArray addr r { s with moves := rest }) := by
  simp only [step_cons hm, runMove, transmitStep, hf, hs, Bool.false_eq_true, if_false]

theorem transmitByte_sent (ht : s.txReady = true) (a : Word) :
    transmitByte a s = finishSend (s.emit (.writeData (a.extractLsb' 0 8))) :=
  if_pos ht

theorem transmitByte_held (ht : s.txReady = false) (a : Word) : transmitByte a s = s :=
  if_neg (by simp [ht])

theorem transmitString_unadmitted (ha : s.admits addr .read = false) (r : Word) :
    transmitString addr r s = s.raiseHostBusFault addr := by
  simp only [transmitString, memRead_eq_none.2 ha]

theorem transmitString_terminator (ha : s.admits addr .read = true) (hc : s.hostByte addr = 0) (r : Word) :
    transmitString addr r s = finishSend s := by
  simp only [transmitString, memRead_admitted ha, if_pos hc]

theorem transmitString_sent (ha : s.admits addr .read = true) (hc : s.hostByte addr ≠ 0) (ht : s.txReady = true)
    (r : Word) : transmitString addr r s =
      { s.emit (.writeData (s.hostByte addr)) with send := .busy .string (addr + 1) r } := by
  simp only [transmitString, memRead_admitted ha, if_neg hc, if_pos ht]

theorem transmitString_held (ha : s.admits addr .read = true) (hc : s.hostByte addr ≠ 0) (ht : s.txReady = false)
    (r : Word) : transmitString addr r s = s := by
  simp only [transmitString, memRead_admitted ha, if_neg hc, ht, Bool.false_eq_true, if_false]

theorem transmitArray_unadmitted (hr : r ≠ 0) (ha : s.admits addr .read = false) :
    transmitArray addr r s = s.raiseHostBusFault addr := by
  simp only [transmitArray, if_neg hr, memRead_eq_none.2 ha]

theorem transmitArray_held (hr : r ≠ 0) (ha : s.admits addr .read = true) (ht : s.txReady = false) :
    transmitArray addr r s = s := by
  simp only [transmitArray, if_neg hr, memRead_admitted ha, ht, Bool.false_eq_true, if_false]

theorem transmitArray_sent (hr : r ≠ 0) (hr1 : r ≠ 1) (ha : s.admits addr .read = true) (ht : s.txReady = true) :
    transmitArray addr r s =
      { s.emit (.writeData (s.hostByte addr)) with send := .busy .array (addr + 1) (r - 1) } := by
  have hnext : r - 1 ≠ 0 := sub_ne_zero.2 hr1
  simp only [transmitArray, if_neg hr, memRead_admitted ha, if_pos ht, if_neg hnext]

theorem transmitArray_last (ha : s.admits addr .read = true) (ht : s.txReady = true) :
    transmitArray addr 1 s = finishSend (s.emit (.writeData (s.hostByte addr))) := by
  simp only [transmitArray, memRead_admitted ha, if_pos ht]
  rfl

/-- Settles O24: the byte is the low eight bits of the cursor's field, and its step waits for the transmitter. -/
theorem transmitByteStep : Obligations.TransmitByteStep := by
  unfold Obligations.TransmitByteStep
  intro s rest addr r hm hf hs
  have hbyte : addr.extractLsb' 0 8 = BitVec.ofNat 8 addr.toNat := rfl
  rw [step_transmit_byte hm hf hs, ← hbyte]
  refine ⟨fun ht => ?_, fun ht => ?_⟩
  · rw [transmitByte_sent (by exact ht)]; rfl
  · rw [transmitByte_held (by exact ht)]

/-- Settles O25: the read decides first, and only a byte that is sent waits for the transmitter. -/
theorem transmitStringStep : Obligations.TransmitStringStep := by
  unfold Obligations.TransmitStringStep
  intro s rest addr r hm hf hs
  rw [step_transmit_string hm hf hs]
  refine ⟨fun ha => ?_, fun ha hc => ?_, fun ha hc => ⟨fun ht => ?_, fun ht => ?_⟩⟩
  · rw [transmitString_unadmitted (by exact ha)]; rfl
  · rw [transmitString_terminator (by exact ha) (by exact hc)]; rfl
  · rw [transmitString_sent (by exact ha) (by exact hc) (by exact ht)]; rfl
  · rw [transmitString_held (by exact ha) (by exact hc) (by exact ht)]

/-- Settles O26: the read decides first, then the transmitter; the remaining count tells the last byte. -/
theorem transmitArrayStep : Obligations.TransmitArrayStep := by
  unfold Obligations.TransmitArrayStep
  intro s rest addr r hm hf hs hr
  rw [step_transmit_array hm hf hs]
  refine ⟨fun ha => ?_, fun ha => ⟨fun ht => ?_, fun ht hr1 => ?_, fun ht hr1 => ?_⟩⟩
  · rw [transmitArray_unadmitted hr (by exact ha)]; rfl
  · rw [transmitArray_held hr (by exact ha) (by exact ht)]
  · rw [transmitArray_sent hr hr1 (by exact ha) (by exact ht)]; rfl
  · rw [hr1, transmitArray_last (by exact ha) (by exact ht)]; rfl

/-! ### A send's transmit steps, all of them (44_transmit.md R184) -/

/-- The output events of a buffer's first n bytes, in address order (30_encoding.md R77, 20_memory.md R54). -/
def writtenBytes (s : State) (src : Word) (n : Nat) : List OutputEvent :=
  (List.range n).map fun i => .writeData (s.hostByte (bufferAddr src i))

@[simp] theorem writtenBytes_zero (s : State) (src : Word) : writtenBytes s src 0 = [] := rfl

theorem writtenBytes_succ (s : State) (src : Word) (n : Nat) :
    writtenBytes s src (n + 1) = .writeData (s.hostByte src) :: writtenBytes s (src + 1) n := by
  simp only [writtenBytes, List.range_succ_eq_map, List.map_cons, List.map_map, Function.comp_def, bufferAddr_zero,
    bufferAddr_succ, Nat.succ_eq_add_one]

/-- A send underway, with k transmit steps to come. -/
def sending (s : State) (k : Nat) (rest : List Move) (e : SendEngine) : State :=
  { s with moves := List.replicate k .transmit ++ rest, send := e }

/-- The state a send ends in: n bytes sent from `src` on, Idle, answered. -/
def sendEnded (s : State) (rest : List Move) (src : Word) (n : Nat) : State :=
  { s with
    moves := rest, send := .idle, awaiting := s.cmdPort.isSome, trace := s.trace ++ writtenBytes s src n
    responses := s.responses ++ [responseWord .success 0] }

theorem sendEnded_zero (s : State) (rest : List Move) (src : Word) :
    sendEnded s rest src 0 = finishSend { s with moves := rest } := by
  rw [sendEnded, writtenBytes_zero, List.append_nil]
  rfl

/-- The first byte sent and then the bytes after it are the whole. -/
theorem sendEnded_succ (s : State) (rest : List Move) (src : Word) (n : Nat) :
    sendEnded (s.emit (.writeData (s.hostByte src))) rest (src + 1) n = sendEnded s rest src (n + 1) := by
  simp only [sendEnded, writtenBytes_succ, State.emit_trace, List.append_assoc, List.singleton_append]
  rfl

theorem step_sending_string_terminator (r : Word) (hf : s.faulted = false) (ha : s.admits src .read = true)
    (hc : s.hostByte src = 0) :
    step (sending s 1 rest (.busy .string src r)) = .next (sendEnded s rest src 0) := by
  rw [sendEnded_zero, step_transmit_string rfl (by exact hf) rfl, transmitString_terminator (by exact ha) (by exact hc)]
  rfl

theorem step_sending_string_sent (k : Nat) (r : Word) (hf : s.faulted = false) (ht : s.txReady = true)
    (ha : s.admits src .read = true) (hc : s.hostByte src ≠ 0) :
    step (sending s (k + 1) rest (.busy .string src r)) =
      .next (sending (s.emit (.writeData (s.hostByte src))) k rest (.busy .string (src + 1) r)) := by
  rw [step_transmit_string rfl (by exact hf) rfl, transmitString_sent (by exact ha) (by exact hc) (by exact ht)]
  rfl

theorem step_sending_array_last (hf : s.faulted = false) (ht : s.txReady = true) (ha : s.admits src .read = true) :
    step (sending s 1 rest (.busy .array src 1)) = .next (sendEnded s rest src 1) := by
  rw [← sendEnded_succ, sendEnded_zero, step_transmit_array rfl (by exact hf) rfl,
    transmitArray_last (by exact ha) (by exact ht)]
  rfl

theorem step_sending_array_sent (k : Nat) (hf : s.faulted = false) (ht : s.txReady = true)
    (ha : s.admits src .read = true) (hr0 : r ≠ 0) (hr1 : r ≠ 1) :
    step (sending s (k + 1) rest (.busy .array src r)) =
      .next (sending (s.emit (.writeData (s.hostByte src))) k rest (.busy .array (src + 1) (r - 1))) := by
  rw [step_transmit_array rfl (by exact hf) rfl, transmitArray_sent hr0 hr1 (by exact ha) (by exact ht)]
  rfl

/-- A busy SEND_STRING sends the n bytes before the first 0x00, one step each, and ends in one step more. -/
theorem run_sending_string {n : Nat} (r : Word) (hf : s.faulted = false) (ht : n ≠ 0 → s.txReady = true)
    (ha : ∀ i ≤ n, s.admits (bufferAddr src i) .read = true)
    (hc : ∀ i < n, s.hostByte (bufferAddr src i) ≠ 0) (h0 : s.hostByte (bufferAddr src n) = 0) :
    core.run (n + 1) (sending s (n + 1) rest (.busy .string src r)) = .next (sendEnded s rest src n) := by
  have hread : s.admits src .read = true := bufferAddr_zero src ▸ ha 0 n.zero_le
  induction n generalizing s src with
  | zero =>
    rw [bufferAddr_zero] at h0
    exact run_succ 0 (step_sending_string_terminator r hf hread h0)
  | succ n ih =>
    have hbyte : s.hostByte src ≠ 0 := bufferAddr_zero src ▸ hc 0 n.succ_pos
    have hready := ht n.succ_ne_zero
    have hatail : ∀ i ≤ n, s.admits (bufferAddr (src + 1) i) .read = true := fun i hi =>
      bufferAddr_succ src i ▸ ha (i + 1) (Nat.succ_le_succ hi)
    have hctail : ∀ i < n, s.hostByte (bufferAddr (src + 1) i) ≠ 0 := fun i hi =>
      bufferAddr_succ src i ▸ hc (i + 1) (Nat.succ_lt_succ hi)
    rw [run_succ (n + 1) (step_sending_string_sent (n + 1) r hf hready hread hbyte), ← sendEnded_succ]
    exact ih hf (fun _ => hready) hatail hctail (bufferAddr_succ src n ▸ h0)
      (bufferAddr_zero (src + 1) ▸ hatail 0 n.zero_le)

/-- A busy SEND_ARRAY sends the bytes that remain, one step each, and ends in the last one's (log 11). -/
theorem run_sending_array {n : Nat} (hr : r.toNat = n + 1) (hf : s.faulted = false) (ht : s.txReady = true)
    (ha : ∀ i < n + 1, s.admits (bufferAddr src i) .read = true) :
    core.run (n + 1) (sending s (n + 1) rest (.busy .array src r)) = .next (sendEnded s rest src (n + 1)) := by
  have hread : s.admits src .read = true := bufferAddr_zero src ▸ ha 0 n.succ_pos
  induction n generalizing s src r with
  | zero =>
    obtain rfl : r = 1 := BitVec.eq_of_toNat_eq hr
    exact run_succ 0 (step_sending_array_last hf ht hread)
  | succ n ih =>
    have htail : ∀ i < n + 1, s.admits (bufferAddr (src + 1) i) .read = true := fun i hi =>
      bufferAddr_succ src i ▸ ha (i + 1) (Nat.succ_lt_succ hi)
    rw [run_succ (n + 1) (step_sending_array_sent (n + 1) hf ht hread (by bv_omega) (by bv_omega)), ← sendEnded_succ]
    exact ih (by bv_omega) hf ht htail (bufferAddr_zero (src + 1) ▸ htail 0 n.succ_pos)

/-! ### A whole send, from its command to its response (44_transmit.md R182 to R184) -/

theorem step_accept_sendString {b : Word} (hm : s.moves = .acceptCommand :: rest)
    (hp : s.cmdPort = some (commandWord 0x05 src b)) (hs : s.send = .idle) (hf : s.faulted = false)
    (ho : s.state = .opened) (hsrc : src ≠ 0) :
    step s = .next { s with moves := rest, cmdPort := none, send := .busy .string src 0 } := by
  have hr : s.ready = true := (State.ready_iff s).2 ⟨hs, hf⟩
  have hexec := (stepRunsTheDecodedInstruction s rest (.sendString src b) rfl).1 _ hm hp rfl
  exact hexec.trans (exec_sendString_accepted (by exact hr) (sendStringCheck_opened (by exact ho) hsrc) b)

theorem step_accept_sendArray (hm : s.moves = .acceptCommand :: rest)
    (hp : s.cmdPort = some (commandWord 0x06 src n)) (hs : s.send = .idle) (hf : s.faulted = false)
    (ho : s.state = .opened) (hsrc : src ≠ 0) (hn : n ≠ 0) :
    step s = .next { s with moves := rest, cmdPort := none, send := .busy .array src n } := by
  have hr : s.ready = true := (State.ready_iff s).2 ⟨hs, hf⟩
  have hexec := (stepRunsTheDecodedInstruction s rest (.sendArray src n) rfl).1 _ hm hp rfl
  exact hexec.trans (exec_sendArray_accepted (by exact hr) (sendArrayCheck_opened (by exact ho) hsrc hn))

/-- Settles O27: the command step enters Busy with the length, which the run of the transmit steps counts down. -/
theorem sendArrayCompletes : Obligations.SendArrayCompletes := by
  unfold Obligations.SendArrayCompletes
  rintro s src b n rest hs hf ho ht hsrc hn1 rfl hn hp hm ha
  obtain ⟨n, rfl⟩ := Nat.exists_eq_add_of_le' hn1
  have hlen : (BitVec.ofNat 32 (n + 1)).toNat = n + 1 := Nat.mod_eq_of_lt hn
  rw [run_succ (n + 1) (step_accept_sendArray hm hp hs hf ho hsrc (by bv_omega))]
  refine (run_sending_array (s := s.takeCommand) hlen hf ht ha).trans ?_
  rw [sendEnded, ← hs]
  rfl

/-- Settles O28: the command step enters Busy at the string's first byte, and the run of the transmit steps ends at its
terminator. -/
theorem sendStringCompletes : Obligations.SendStringCompletes := by
  unfold Obligations.SendStringCompletes
  intro s src b n rest hs hf ho ht hsrc hp hm ha hc h0
  rw [run_succ (n + 1) (step_accept_sendString hm hp hs hf ho hsrc)]
  refine (run_sending_string (s := s.takeCommand) 0 hf ht ha hc h0).trans ?_
  rw [sendEnded, ← hs]
  rfl

end Sys2Proof.Machine
end

section
/-!
SUPPORT. Proofs of the statements of the family 45_query.md: what the four queries answer in every ready state, and that a
reserved opcode answers InvalidArgument.
-/

namespace Sys2Proof.Machine

variable {s : State}

/-! ### The queries (45_query.md R200 to R203) -/

theorem exec_getStatus (hr : s.ready = true) (a b : Word) :
    exec (.getStatus a b) s = .next (s.takeCommand.respond .success (statusValue s.rxIrqEnable s.state)) := by
  simp only [exec, execGetStatus, onCommandPort_ready hr, State.takeCommand_rxIrqEnable, State.takeCommand_state]

theorem exec_getCount (hr : s.ready = true) (a b : Word) :
    exec (.getCount a b) s = .next (s.takeCommand.respond .success (BitVec.ofNat 32 s.rxQueue.count)) := by
  simp only [exec, execGetCount, onCommandPort_ready hr, State.takeCommand_rxQueue]

/-- The status word as a sum: the state weighs 1, the interrupt enable 2 (R202). -/
theorem statusValue_eq_ofNat (irq : Bool) (st : Lifecycle) :
    statusValue irq st = BitVec.ofNat 32 ((if st = .opened then 1 else 0) + (if irq then 2 else 0)) := by
  cases irq <;> cases st <;> rfl

theorem State.Inv.rxIrqEnable_eq_decide_opened (hi : s.Inv) (hf : s.faulted = false) :
    s.rxIrqEnable = decide (s.state = .opened) := by
  rw [hi.irq, hf, Bool.not_false, Bool.and_true]

theorem ResultCode.code_of_legalLastError {e : ResultCode} (h : e.legalLastError = true) :
    e.code = 0x0 ∨ 0x6 ≤ e.code.toNat ∧ e.code.toNat ≤ 0xA := by
  cases e
  case invalidArgument | notOpen | alreadyOpen | queueFull | queueEmpty => contradiction
  case success => exact .inl rfl
  all_goals exact .inr (by decide)

/-- Settles O15: each query answers, with the register it reads, the state whose command is taken; the table of the six
codes is decided, and under the invariant a block that is not faulted has its interrupt enabled exactly when Open. -/
theorem queriesAnswerTheirRegister : Obligations.QueriesAnswerTheirRegister := by
  unfold Obligations.QueriesAnswerTheirRegister
  intro a b s hs hf
  have hr : s.ready = true := (State.ready_iff s).2 ⟨hs, hf⟩
  refine ⟨rfl, rfl, rfl, rfl, fun e he => ?_, ⟨false, exec_getDropped hr a b⟩, ⟨false, ?_⟩,
    fun hi => hi.rxIrqEnable_eq_decide_opened hf, ⟨false, exec_getCount hr a b⟩⟩
  · have hcode : e.1.code.zeroExtend 32 = e.2 := by
      revert e
      decide
    intro hl
    rw [← hcode, ← hl]
    exact ⟨false, exec_getLastError hr a b⟩
  · rw [← statusValue_eq_ofNat]
    exact exec_getStatus hr a b

/-- Settles O16: GET_LAST_ERROR answers the code, which the invariant's legal values of `st.lastError` bound. -/
theorem lastErrorQueryCompletes : Obligations.LastErrorQueryCompletes := by
  unfold Obligations.LastErrorQueryCompletes
  exact fun a b s hs hf => ⟨exec_getLastError ((State.ready_iff s).2 ⟨hs, hf⟩) a b,
    fun hi => ResultCode.code_of_legalLastError hi.lastError⟩

/-! ### The reserved opcodes (45_query.md R204) -/

theorem exec_reserved00 (hr : s.ready = true) (a b : Word) :
    exec (.reserved00 a b) s = .next (s.takeCommand.respond .invalidArgument 0) := by
  simp only [exec, execReserved00, onCommandPort_ready hr]

theorem exec_reserved0BFF (hr : s.ready = true) (op : Byte) (a b : Word) :
    exec (.reserved0BFF op a b) s = .next (s.takeCommand.respond .invalidArgument 0) := by
  simp only [exec, execReserved0BFF, onCommandPort_ready hr]

theorem decodeCommand_reserved00 {w : BitVec 72} (h : (cmdOp w).toNat = 0x00) :
    decodeCommand w = .reserved00 (cmdA w) (cmdB w) := by
  simp only [decodeCommand, h]

/-- Settles O17: both rows answer InvalidArgument, and the opcode of a reserved word decides which of them it decodes
to. -/
theorem reservedOpcodesAnswerInvalidArgument : Obligations.ReservedOpcodesAnswerInvalidArgument := by
  unfold Obligations.ReservedOpcodesAnswerInvalidArgument
  intro s hs hf
  have hr : s.ready = true := (State.ready_iff s).2 ⟨hs, hf⟩
  refine ⟨fun a b => ⟨false, exec_reserved00 hr a b⟩, fun op a b => ⟨false, exec_reserved0BFF hr op a b⟩,
    fun w hop => ⟨false, ?_⟩⟩
  rw [← cmdOp_toNat] at hop
  rcases hop with h0 | hrange
  · rw [decode, decodeCommand_reserved00 h0]
    exact exec_reserved00 hr (cmdA w) (cmdB w)
  · rw [decode, decodeCommand_reserved hrange]
    exact exec_reserved0BFF hr (cmdOp w) (cmdA w) (cmdB w)

end Sys2Proof.Machine
end

section
/-!
SUPPORT. Proofs of the statements of the family 60_exceptions.md: a step is refused in no state and faults only on a
stopped block with no move left, and the fault bit is set only by the step's own unadmitted access.
-/

namespace Sys2Proof.Machine

/-! ### Every move answers a next state (00_scope.md R5) -/

theorem onCommandPort_eq_next (s : State) (f : State → State) : ∃ t, onCommandPort s f = .next t := by
  cases hr : s.ready with
  | true => exact ⟨_, onCommandPort_ready hr f⟩
  | false => exact ⟨_, onCommandPort_held hr f⟩

theorem onFifoPort_eq_next (r : FifoRequest 8) (s : State) : ∃ t, onFifoPort r s = .next t := by
  unfold onFifoPort
  dsimp only
  split <;> exact ⟨_, rfl⟩

theorem exec_command_eq_next {i : Instr} (hp : (encode i).port = .command) (s : State) : ∃ t, exec i s = .next t := by
  obtain ⟨f, hf⟩ := exec_onCommandPort hp
  exact hf s ▸ onCommandPort_eq_next s f

theorem exec_fifo_eq_next {i : Instr} (hp : (encode i).port = .fifo) (s : State) : ∃ t, exec i s = .next t := by
  obtain ⟨r, hr⟩ := exec_fifo hp s
  exact hr ▸ onFifoPort_eq_next r s

theorem exec_rxEvent_eq_next (status : BitVec 10) (d : Byte) (s : State) :
    ∃ t, exec (.rxEvent status d) s = .next t := by
  simp only [exec, execRxEvent]
  split <;> exact ⟨_, rfl⟩

/-- No instruction faults or is refused, in any state. -/
theorem exec_eq_next (i : Instr) (s : State) : ∃ t, exec i s = .next t := by
  cases i with
  | rxEvent status d => exact exec_rxEvent_eq_next status d s
  | fifoIdle | fifoTryPush | fifoTryPop | fifoInit => exact exec_fifo_eq_next rfl s
  | _ => exact exec_command_eq_next rfl s

/-- No move faults or is refused, in any state: the three moves of a port run the instruction whose word stands there,
and change nothing where the port is empty. -/
theorem runMove_eq_next (m : Move) (s : State) : ∃ t, runMove m s = .next t := by
  cases m with
  | acceptCommand | takeEvent | serveFifo =>
    simp only [runMove, acceptCommand, takeEvent, serveFifo]
    split
    · exact ⟨s, rfl⟩
    · exact exec_eq_next _ s
  | _ => exact ⟨_, rfl⟩

/-! ### The step with no move left (log 1, log 2) -/

theorem step_nil_stopped {s : State} (hm : s.moves = []) (hf : s.faulted = true) :
    step s = .fault (.hostBusFault s.faultAddr) := by
  simp only [step, nextMove, hm, hf, if_true]

theorem step_nil_running {s : State} (hm : s.moves = []) (hf : s.faulted = false) : step s = .next s := by
  simp only [step, nextMove, hm, hf, Bool.false_eq_true, if_false]

/-- Settles O11: with a move left the step is that move, which answers a next state; with none left the fault
bit decides. -/
theorem onlyAStoppedBlockFaults : Obligations.OnlyAStoppedBlockFaults := by
  unfold Obligations.OnlyAStoppedBlockFaults
  refine fun s => ⟨fun ⟨hm, hf⟩ => step_nil_stopped hm hf, fun h => ?_⟩
  cases hm : s.moves with
  | nil => exact ⟨s, step_nil_running hm (h.resolve_left (absurd hm))⟩
  | cons m rest =>
    rw [step_cons hm]
    exact runMove_eq_next m _

/-! ### The accesses that stop the block (R226) -/

/-- The kinds of send that read host memory (44_transmit.md R185). -/
theorem SendKind.eq_string_or_array {k : SendKind} (h : k ≠ .byte) : k = .string ∨ k = .array := by
  cases k with
  | byte => contradiction
  | string => exact .inl rfl
  | array => exact .inr rfl

/-- Settles O44: of the shapes a step can have, only a transmit step stopped at its read and READ's critical section can
set the fault bit, the latter where it stops at its first unadmitted write. -/
theorem faultOnlyFromUnadmittedAccess : Obligations.FaultOnlyFromUnadmittedAccess := by
  unfold Obligations.FaultOnlyFromUnadmittedAccess
  intro s t hf h ht
  cases step_shape h with
  | stopped k a r rest hm _ hs hk hno =>
    exact ⟨.inl ⟨k, a, r, head?_moves hm, hs, SendKind.eq_string_or_array hk, hno, rfl⟩, rfl, rfl, rfl, rfl, rfl⟩
  | drained w dst n rest hm hp hd hi _ ho =>
    obtain ⟨c, r, m, he | ⟨i, hlt, hadm, hno, he⟩⟩ :=
      readEffect_shape dst n { s with moves := rest, cmdPort := none } <;> rw [he] at ht ⊢
    · simp [hf] at ht
    · exact ⟨.inr ⟨w, dst, n, i, head?_moves hm, hp, hd, hi, ho, hlt, hadm, hno, rfl⟩, rfl, rfl, rfl, rfl, rfl⟩
  | _ => simp [hf] at ht

end Sys2Proof.Machine
end

section
/-!
SUPPORT. Proofs of the statements of the family 70_reset_and_hazards.md and of the FIFO port's map: what power-up reset
writes and leaves, and the fields of a FIFO word as arithmetic.
-/

namespace Sys2Proof

/-! ### The map of the FIFO engine's port, its fields as arithmetic (30_encoding.md R78) -/

theorem fifoOp_toNat (w : BitVec 10) : (fifoOp w).toNat = w.toNat % 4 := by
  simp [fifoOp]

theorem fifoData_eq_ofNat (w : BitVec 10) : fifoData w = BitVec.ofNat 8 (w.toNat / 4) := by
  simp [fifoData, BitVec.extractLsb', Nat.shiftRight_eq_div_pow]

/-- Settles O5: `fop` as a number chooses the row, and the operand is `fwdata` as arithmetic. -/
theorem fifoPortMap : Obligations.FifoPortMap := by
  unfold Obligations.FifoPortMap
  intro w
  simp only [← fifoOp_toNat, ← fifoData_eq_ofNat]
  refine ⟨?_, ?_, ?_, ?_⟩ <;> intro h <;> simp only [decode, decodeFifo, h]

end Sys2Proof

namespace Sys2Proof.Machine

/-! ### Power-up reset (70_reset_and_hazards.md R260) -/

/-- Settles O45: the step is the reset source's move, whatever the state of the block. -/
theorem powerResetEffect : Obligations.PowerResetEffect := by
  unfold Obligations.PowerResetEffect
  intro s rest hm
  rw [step_cons hm, runMove, State.powerReset, Fifo.init]

end Sys2Proof.Machine
end
